-- ==== Sys2Proof/Word.lean ====
section
/-! DEFINITION. The bit vectors the spec treats as bits (R6, R20, R50): registers and addresses. Their
arithmetic is in Machine/Operands.lean, where it can be mended. -/

namespace Sys2Proof

/-- A 16-bit word: a general register, the pc, an instruction, a device value (R6, R20, R25, R80). -/
abbrev Word := BitVec 16

/-- One byte of memory (R50). -/
abbrev Byte := BitVec 8

/-- A 17-bit physical byte address, 0x00000 to 0x1FFFF (R50). -/
abbrev Addr := BitVec 17

end Sys2Proof
end

