-- ==== Sys2Proof/Config.lean ====
section
/-! DEFINITION. What an implementation fixes (the OPEN parameters of R5, each with every value the spec
lists) and the free values (what the spec lets the environment or the hardware supply). -/

namespace Sys2Proof

/-- `RIMM_EXT` (R5, R86, D4): how the 5-bit Register-format immediate is widened to 16 bits. -/
inductive ImmExt where
  | zero
  | sign
deriving DecidableEq, Repr

/-- `UNUSED_FIELDS` (R5, R88, D6): what a non-zero unused field does. -/
inductive UnusedFields where
  | ignore
  | fault
deriving DecidableEq, Repr

/-- `SUB_CARRY` (R5, R112, D9): the polarity of C after SUB. -/
inductive SubCarry where
  | borrow
  | notBorrow
deriving DecidableEq, Repr

/-- `PC_WRAP` (R5, R27, D12): what the address after the last instruction slot is. -/
inductive PcWrap where
  | wrap
  | fault
deriving DecidableEq, Repr

/-- `BYTE_ORDER` (R5, R56, D17). -/
inductive ByteOrder where
  | little
  | big
deriving DecidableEq, Repr

/-- `MISALIGNED` (R5, R57, D18): what a 2-byte access at an odd address does. -/
inductive Misaligned where
  | fault
  | split
deriving DecidableEq, Repr

/-- The OPEN parameters of R5. A machine has one value of each for its whole life; the State carries
them (assumption 1) and no step changes them. -/
structure Config where
  rimmExt      : ImmExt
  unusedFields : UnusedFields
  subCarry     : SubCarry
  pcWrap       : PcWrap
  byteOrder    : ByteOrder
  misaligned   : Misaligned
deriving DecidableEq, Repr

/-- `MEM_BYTES` (R5, R50): 128 KB, all RAM. -/
def memBytes : Nat := 131072

/-- FREE VALUE (assumption 4; R181, R183, R216, U11): the value the environment hands to the `n`-th DevRead for
which the state lists no supplied value. Nothing is known of it. -/
opaque Config.freeInput : Nat → Word

/-- FREE VALUE (assumption 3; R40, U12): the unspecified contents of a byte of memory that neither the host nor
the program has written. Nothing is known of it. -/
opaque Config.unwrittenByte : Addr → Byte

end Sys2Proof
end

