-- ==== Sys2Proof/Machine/Parameters.lean ====
section
/-! DEFINITION. The values State.reset takes from the parameter table of R5, and the values the model names where
the spec leaves the reset value open. They stand here, apart from State.lean, so that they can be mended. -/

namespace Sys2Proof.Machine

/-- The default of every OPEN parameter (R5). -/
def defaultConfig : Config :=
  { rimmExt := .zero, unusedFields := .ignore, subCarry := .borrow,
    pcWrap := .wrap, byteOrder := .little, misaligned := .fault }

/-- `RESET_PC` (R5, R40, R230). -/
def resetPc : Word := 0x0000#16

/-- DESIGN CHOICE (assumption 2): the reset value of R1 to R7, which R40 leaves unspecified. -/
def resetRegister : Word := 0x0000#16

/-- DESIGN CHOICE (assumption 2): the reset value of C, V, Z, N, which R40 leaves unspecified. -/
def resetFlag : Bool := false

end Sys2Proof.Machine
end

