-- ==== Sys2Proof/Machine/State.lean ====
section
/-! DEFINITION. The state of the machine as plain data (R20 to R41), the reasons a step can stop, and the state
after reset (R40, R230, R231). -/

namespace Sys2Proof.Machine

/-- R1 to R7. R0 is hardwired to zero and "holds no state" (R21). -/
structure RegFile where
  r1 : Word
  r2 : Word
  r3 : Word
  r4 : Word
  r5 : Word
  r6 : Word
  r7 : Word
deriving DecidableEq, Repr

/-- Carry, Overflow, Zero, Negative: "four separate bits" (R30). -/
structure Flags where
  c : Bool
  v : Bool
  z : Bool
  n : Bool
deriving DecidableEq, Repr

/-- The one architectural exception (R200, R201). -/
inductive Cause where
  | divideByZero
deriving DecidableEq, Repr

/-- The run-state element of R37. Its fourth value, `Fault(reason, a)`, "is not a state of the hardware": here it is
the step's outcome `fault` (assumption 6). -/
inductive RunState where
  | running
  | halted
  | exception (cause : Cause) (addr : Word)
deriving DecidableEq, Repr

/-- The devices IN reads (R183, R217). -/
inductive InputDevice where
  | keyboard
  | timer
  | random
deriving DecidableEq, Repr

/-- The devices OUT writes (R184, R217). -/
inductive OutputDevice where
  | console
  | graphics
  | disk
deriving DecidableEq, Repr

/-- One event of the device trace (R39, R181): `In(d, v)` or `Out(d, v)`. -/
inductive DevEvent where
  | input (dev : InputDevice) (v : Word)
  | output (dev : OutputDevice) (v : Word)
deriving DecidableEq, Repr

/-- The environment behind the device space (R14, R181, R182), as plain data: what it will answer. The model's own
field (assumption 5); a statement about every state holds for every environment. -/
structure Environment where
  /-- the answers to the coming attempts to access a device, oldest first: `true` holds the attempt (R182) -/
  holds     : List Bool
  /-- the answer to every attempt after those: `true` is a device that never becomes available (R182) -/
  holdsRest : Bool
  /-- the values the keyboard will supply, oldest first; after them its values are free -/
  keyboard  : List Word
  /-- the same for the timer -/
  timer     : List Word
  /-- the same for the random-number device -/
  random    : List Word
  /-- how many free values have been drawn (the argument of `Config.freeInput`) -/
  draws     : Nat
deriving DecidableEq, Repr

/-- Memory (R50): the bytes that the host or the program has written, by address, addresses strictly rising. An
address not listed has no value of its own; see `readByte` for what it reads as. -/
abbrev Memory := List Host.Cell

/-- The complete state (10_state.md, introduction; R20 to R41), with the environment and the OPEN parameters beside
it. -/
structure State where
  /-- R1 to R7 (R20, R21) -/
  regs   : RegFile
  /-- the program counter (R25) -/
  pc     : Word
  /-- the condition flags (R30) -/
  flags  : Flags
  /-- the run state (R37) -/
  run    : RunState
  /-- memory (R38, R50) -/
  mem    : Memory
  /-- the device trace, oldest event first (R39, R181) -/
  trace  : List DevEvent
  /-- the environment's answers (R181, R182): the model's own -/
  env    : Environment
  /-- the OPEN parameters (R5): the model's own, constant -/
  config : Config
deriving DecidableEq, Repr

/-- Why a step stops with a model fault (R206). All are safe: the spec gives the case no behaviour, and no state is
written. -/
inductive Fault where
  /-- raised by the fetch when `pc` is odd (R27, R57, R59) under `MISALIGNED = fault`; safe -/
  | misalignedFetch (pc : Word)
  /-- raised by the step when the word's opcode is 0x14 to 0x1F (R89), or a non-zero unused field is met under
  `UNUSED_FIELDS = fault` (R88); safe -/
  | illegalInstruction (pc w : Word)
  /-- raised by LD and ST when the effective address is odd (R57, R141, R142) under `MISALIGNED = fault`; safe -/
  | misalignedData (pc ea : Word)
  /-- raised by IN and OUT for device numbers 3 to 31 (R183, R184, R187, R188); safe -/
  | unknownDevice (pc : Word) (dev : BitVec 5)
  /-- raised by an instruction that uses the next address at the top of the 16-bit space, only under
  `PC_WRAP = fault` (R5, R27, U10); safe; assumption 8 -/
  | pcWrap (pc : Word)
deriving DecidableEq, Repr

/-- Why a step has no meaning. -/
inductive Refusal where
  /-- an instruction that has no meaning yet; raised by a refused arm of exec only (there is none); safe -/
  | notModelled (mnemonic : String)
deriving DecidableEq, Repr

/-- The environment at reset: every device available, every input a free value (DESIGN CHOICE, assumption 5). -/
def Environment.initial : Environment :=
  { holds := [], holdsRest := false, keyboard := [], timer := [], random := [], draws := 0 }

/-- The machine right after reset (R40, R230, R231): `pc = 0x0000`, running, nothing loaded, an empty trace; the
registers and flags, which R40 leaves unspecified, as Parameters.lean names them (DESIGN CHOICE, assumption 2). -/
def State.reset : State :=
  { regs := { r1 := resetRegister, r2 := resetRegister, r3 := resetRegister, r4 := resetRegister,
              r5 := resetRegister, r6 := resetRegister, r7 := resetRegister }
    pc := resetPc
    flags := { c := resetFlag, v := resetFlag, z := resetFlag, n := resetFlag }
    run := .running
    mem := []
    trace := []
    env := Environment.initial
    config := defaultConfig }

end Sys2Proof.Machine
end

