-- ==== Sys2Proof/Syntax.lean ====
section
/-! DEFINITION. The instructions, one constructor per row of spec/opcode_table.json (R87), over decoded fields
(R12); and the assembler's source operands (R93, R94, R96). -/

namespace Sys2Proof

/-- The eight general registers (R20). -/
inductive Reg where
  | r0 | r1 | r2 | r3 | r4 | r5 | r6 | r7
deriving DecidableEq, Repr

/-- The 20 instructions with the fields each uses (R87, R88). `imm5` and `imm8` are the raw fields of R12;
an unused field has no place here, so two words that differ only there are one instruction (R91). -/
inductive Instr where
  /-- ADD Rd, Rs, Imm (R111) -/
  | add (rd rs : Reg) (imm5 : BitVec 5)
  /-- SUB Rd, Rs, Imm (R112) -/
  | sub (rd rs : Reg) (imm5 : BitVec 5)
  /-- MUL Rd, Rs, Imm (R113) -/
  | mul (rd rs : Reg) (imm5 : BitVec 5)
  /-- DIV Rd, Rs, Imm (R114) -/
  | div (rd rs : Reg) (imm5 : BitVec 5)
  /-- AND Rd, Rs, Imm (R130) -/
  | and (rd rs : Reg) (imm5 : BitVec 5)
  /-- OR Rd, Rs, Imm (R131) -/
  | or (rd rs : Reg) (imm5 : BitVec 5)
  /-- XOR Rd, Rs, Imm (R132) -/
  | xor (rd rs : Reg) (imm5 : BitVec 5)
  /-- NOT Rd, Rs (R133) -/
  | not (rd rs : Reg)
  /-- LD Rd, [Rs+Imm] (R141) -/
  | ld (rd rs : Reg) (imm5 : BitVec 5)
  /-- ST [Rd+Imm], Rs (R142): `rd` is the base, `rs` the data -/
  | st (rd rs : Reg) (imm5 : BitVec 5)
  /-- LDI Rd, Imm (R143) -/
  | ldi (rd : Reg) (imm8 : BitVec 8)
  /-- LDA Rd, Imm (R144) -/
  | lda (rd : Reg) (imm8 : BitVec 8)
  /-- JMP Imm (R161) -/
  | jmp (imm8 : BitVec 8)
  /-- JZ Rd, Imm (R162) -/
  | jz (rd : Reg) (imm5 : BitVec 5)
  /-- JNZ Rd, Imm (R163) -/
  | jnz (rd : Reg) (imm5 : BitVec 5)
  /-- CALL Rd (R166) -/
  | call (rd : Reg)
  /-- IN Rd, Imm (R187): `dev` is the device number -/
  | inp (rd : Reg) (dev : BitVec 5)
  /-- OUT Imm, Rs (R188): `dev` is the device number -/
  | out (dev : BitVec 5) (rs : Reg)
  /-- HALT (R185) -/
  | halt
  /-- NOP (R186) -/
  | nop
deriving DecidableEq, Repr

/-- The 20 mnemonics (R87, R93). -/
inductive Mnemonic where
  | add | sub | mul | div | and | or | xor | not | ld | st | ldi | lda
  | jmp | jz | jnz | call | inp | out | halt | nop
deriving DecidableEq, Repr

/-- One operand of an assembly line, with the numbers as the programmer wrote them (R93, R94, R96). -/
inductive Operand where
  /-- `R<n>` -/
  | reg (n : Nat)
  /-- a number -/
  | imm (v : Int)
  /-- `[R<base>+<off>]` -/
  | mem (base : Nat) (off : Int)
  /-- a symbolic target -/
  | label (name : List Char)
deriving DecidableEq, Repr

/-- One assembly instruction: a mnemonic and its operands in the source's order (R94). -/
structure AsmInstr where
  mnemonic : Mnemonic
  operands : List Operand
deriving DecidableEq, Repr

/-- One line of assembly: at most one label definition, at most one instruction (R93, R96). -/
structure AsmLine where
  label : Option (List Char)
  instr : Option AsmInstr
deriving DecidableEq, Repr

end Sys2Proof
end

