-- ==== Sys2Proof/Machine/Operands.lean ====
section
/-! DEFINITION. Integers and words (R6, R7), the immediates (R86), addresses (R52, R140), and the reading and writing
of a register (R8, R20, R21). -/

namespace Sys2Proof.Machine

/-! Words as integers (R6, R7). -/

/-- `u(v)`: the unsigned integer a word denotes (R6). -/
def u (v : Word) : Int := (v.toNat : Int)

/-- `s16(v)`: the signed integer a word denotes, two's complement (R6). -/
def s16 (v : Word) : Int := v.toInt

/-- `trunc16(n)`: an integer reduced modulo 2^16 (R7). -/
def trunc16 (n : Int) : Word := BitVec.ofInt 16 n

/-- Bit 15 of a word, its sign (R6). -/
def bit15 (v : Word) : Bool := v.getLsbD 15

/-! Immediates (R86). -/

/-- The Register-format operand `imm16`: `zext_16(imm5)`, or `sext_16(imm5)` under `RIMM_EXT = sign` (R86a). -/
def regImm (ext : ImmExt) (imm5 : BitVec 5) : Word :=
  match ext with
  | .zero => imm5.setWidth 16
  | .sign => imm5.signExtend 16

/-- LDI's operand, `sext_16(imm8)` (R86b). -/
def ldiImm (imm8 : BitVec 8) : Word := imm8.signExtend 16

/-- LDA's operand, `zext_16(imm8)` (R86c). -/
def ldaImm (imm8 : BitVec 8) : Word := imm8.setWidth 16

/-- JMP's target, `zext_16(imm8)` (R86d, R160). -/
def jmpTarget (imm8 : BitVec 8) : Word := imm8.setWidth 16

/-- JZ's and JNZ's target, `zext_16(imm5)`, whatever `RIMM_EXT` is (R86e, R160; assumption 10). -/
def branchTarget (imm5 : BitVec 5) : Word := imm5.setWidth 16

/-! Addresses. -/

/-- `ea = trunc16(u(base) + u(imm16))` (R140). -/
def effectiveAddress (base offset : Word) : Word := trunc16 (u base + u offset)

/-- The physical address `zext_17(a16)` (R52). -/
def physical (a16 : Word) : Addr := a16.setWidth 17

/-! Registers. -/

/-- `x[i]`: R0 always yields 0x0000 (R8, R21). -/
def readReg (r : Reg) (s : State) : Word :=
  match r with
  | .r0 => 0x0000#16
  | .r1 => s.regs.r1
  | .r2 => s.regs.r2
  | .r3 => s.regs.r3
  | .r4 => s.regs.r4
  | .r5 => s.regs.r5
  | .r6 => s.regs.r6
  | .r7 => s.regs.r7

/-- A register file with one register replaced; a write of R0 is ignored (R8, R21). -/
def withReg (r : Reg) (v : Word) (f : RegFile) : RegFile :=
  match r with
  | .r0 => f
  | .r1 => { f with r1 := v }
  | .r2 => { f with r2 := v }
  | .r3 => { f with r3 := v }
  | .r4 => { f with r4 := v }
  | .r5 => { f with r5 := v }
  | .r6 => { f with r6 := v }
  | .r7 => { f with r7 := v }

/-- `x[i] <- v` (R8). -/
def writeReg (r : Reg) (v : Word) (s : State) : State := { s with regs := withReg r v s.regs }

end Sys2Proof.Machine
end

