-- ==== Sys2Proof/Machine/Flags.lean ====
section
/-! DEFINITION. The results and the flags of ADD, SUB, MUL and DIV (R110 to R116): computed exactly in the integers and
narrowed at the end. -/

namespace Sys2Proof.Machine

/-- Whether an exact integer result is representable as a signed 16-bit value (R116). -/
def fitsSigned (n : Int) : Bool := decide (-32768 ≤ n) && decide (n ≤ 32767)

/-- `r = trunc16(u(a) + u(b))` (R111). -/
def addResult (a b : Word) : Word := trunc16 (u a + u b)

/-- ADD's four flags (R111). -/
def addFlags (a b : Word) : Flags :=
  let r := addResult a b
  { c := decide (65536 ≤ u a + u b)
    v := (bit15 a == bit15 b) && (bit15 r != bit15 a)
    z := r == 0x0000#16
    n := bit15 r }

/-- `r = trunc16(u(a) - u(b))` (R112). -/
def subResult (a b : Word) : Word := trunc16 (u a - u b)

/-- C after SUB: set on a borrow, or the inverse under `SUB_CARRY = not_borrow` (R112). -/
def subCarryFlag (p : SubCarry) (a b : Word) : Bool :=
  match p with
  | .borrow => decide (u a < u b)
  | .notBorrow => !decide (u a < u b)

/-- SUB's four flags (R112). -/
def subFlags (p : SubCarry) (a b : Word) : Flags :=
  let r := subResult a b
  { c := subCarryFlag p a b
    v := (bit15 a != bit15 b) && (bit15 r != bit15 a)
    z := r == 0x0000#16
    n := bit15 r }

/-- `p = s16(a) * s16(b)`, the exact product (R113). -/
def mulProduct (a b : Word) : Int := s16 a * s16 b

/-- `r = trunc16(p)` (R113). -/
def mulResult (a b : Word) : Word := trunc16 (mulProduct a b)

/-- MUL writes V and Z; C and N are unchanged (R113). -/
def mulFlags (a b : Word) (f : Flags) : Flags :=
  { f with v := !fitsSigned (mulProduct a b), z := mulResult a b == 0x0000#16 }

/-- `q = truncdiv(s16(a), s16(b))`, rounded toward zero (R114). -/
def divQuotient (a b : Word) : Int := (s16 a).tdiv (s16 b)

/-- `r = trunc16(q)` (R114). -/
def divResult (a b : Word) : Word := trunc16 (divQuotient a b)

/-- DIV writes V and Z; C and N are unchanged (R114). -/
def divFlags (a b : Word) (f : Flags) : Flags :=
  { f with v := !fitsSigned (divQuotient a b), z := divResult a b == 0x0000#16 }

end Sys2Proof.Machine
end

