-- ==== Sys2Proof/Decode.lean ====
section
/-! DEFINITION. The layout of an instruction word (R81 to R85), the decoder, total on all 65536 words (R91), the
encoder (R98), and the order of a word's two bytes in memory (R54 to R56, R59). -/

namespace Sys2Proof

/-! The fields (R81 to R85). -/

/-- `op = w[15:11]` (R81). -/
def opField (w : Word) : BitVec 5 := w.extractLsb' 11 5
/-- `rd = w[10:8]` (R82). -/
def rdField (w : Word) : BitVec 3 := w.extractLsb' 8 3
/-- `rs = w[7:5]` (R82). -/
def rsField (w : Word) : BitVec 3 := w.extractLsb' 5 3
/-- `imm5 = w[4:0]` (R83). -/
def imm5Field (w : Word) : BitVec 5 := w.extractLsb' 0 5
/-- `imm8 = w[7:0]` (R84). -/
def imm8Field (w : Word) : BitVec 8 := w.extractLsb' 0 8

/-- A register number names R0 to R7 in order (R20). -/
def regOfBits (b : BitVec 3) : Reg :=
  match b.toNat with
  | 0 => .r0
  | 1 => .r1
  | 2 => .r2
  | 3 => .r3
  | 4 => .r4
  | 5 => .r5
  | 6 => .r6
  | _ => .r7

/-- The number of a register (R20). -/
def regBits : Reg → BitVec 3
  | .r0 => 0#3
  | .r1 => 1#3
  | .r2 => 2#3
  | .r3 => 3#3
  | .r4 => 4#3
  | .r5 => 5#3
  | .r6 => 6#3
  | .r7 => 7#3

/-- What decoding answers: an instruction, or why there is none, with the word. -/
inductive Decoded where
  | instr (i : Instr)
  /-- opcode 0x14 to 0x1F: `Illegal(w)` (R89, R91) -/
  | reservedOpcode (w : Word)
  /-- a non-zero unused field, only under `UNUSED_FIELDS = fault` (R88) -/
  | unusedFieldSet (w : Word)
deriving DecidableEq, Repr

/-- The opcode map of R87, with the fields each row uses (R83 to R85, R88); none for the reserved opcodes (R89). -/
def decodeOpcode (w : Word) : Option Instr :=
  let rd := regOfBits (rdField w)
  let rs := regOfBits (rsField w)
  let imm5 := imm5Field w
  let imm8 := imm8Field w
  match (opField w).toNat with
  | 0x00 => some (.add rd rs imm5)
  | 0x01 => some (.sub rd rs imm5)
  | 0x02 => some (.mul rd rs imm5)
  | 0x03 => some (.div rd rs imm5)
  | 0x04 => some (.and rd rs imm5)
  | 0x05 => some (.or rd rs imm5)
  | 0x06 => some (.xor rd rs imm5)
  | 0x07 => some (.not rd rs)
  | 0x08 => some (.ld rd rs imm5)
  | 0x09 => some (.st rd rs imm5)
  | 0x0A => some (.ldi rd imm8)
  | 0x0B => some (.lda rd imm8)
  | 0x0C => some (.jmp imm8)
  | 0x0D => some (.jz rd imm5)
  | 0x0E => some (.jnz rd imm5)
  | 0x0F => some (.call rd)
  | 0x10 => some (.inp rd imm5)
  | 0x11 => some (.out imm5 rs)
  | 0x12 => some .halt
  | 0x13 => some .nop
  | _ => none

/-- The bits an instruction's word has in unused fields (R88; the table's "unused_fields"). -/
def unusedMask : Instr → Word
  | .add _ _ _ => 0x0000#16
  | .sub _ _ _ => 0x0000#16
  | .mul _ _ _ => 0x0000#16
  | .div _ _ _ => 0x0000#16
  | .and _ _ _ => 0x0000#16
  | .or _ _ _  => 0x0000#16
  | .xor _ _ _ => 0x0000#16
  | .not _ _   => 0x001F#16
  | .ld _ _ _  => 0x0000#16
  | .st _ _ _  => 0x0000#16
  | .ldi _ _   => 0x0000#16
  | .lda _ _   => 0x0000#16
  | .jmp _     => 0x0700#16
  | .jz _ _    => 0x00E0#16
  | .jnz _ _   => 0x00E0#16
  | .call _    => 0x00FF#16
  | .inp _ _   => 0x00E0#16
  | .out _ _   => 0x0700#16
  | .halt      => 0x07FF#16
  | .nop       => 0x07FF#16

/-- The decoder (R91), under either value of `UNUSED_FIELDS` (R88; assumption 13). -/
def decode (u : UnusedFields) (w : Word) : Decoded :=
  match decodeOpcode w with
  | none => .reservedOpcode w
  | some i =>
    match u with
    | .ignore => .instr i
    | .fault => if w &&& unusedMask i = 0#16 then .instr i else .unusedFieldSet w

/-! The encoder (R98): unused fields are zero. -/

/-- Format R: `(op << 11) | (rd << 8) | (rs << 5) | imm5` (R83, R98). -/
def encodeR (op : BitVec 5) (rd rs : BitVec 3) (imm5 : BitVec 5) : Word := op ++ rd ++ rs ++ imm5

/-- Format I: `(op << 11) | (rd << 8) | imm8` (R84, R98). -/
def encodeI (op : BitVec 5) (rd : BitVec 3) (imm8 : BitVec 8) : Word := op ++ rd ++ imm8

/-- Format N: `op << 11` (R85, R98). -/
def encodeN (op : BitVec 5) : Word := op ++ 0#11

/-- The opcode of R87's table. -/
def opcodeOf : Instr → BitVec 5
  | .add _ _ _ => 0x00#5
  | .sub _ _ _ => 0x01#5
  | .mul _ _ _ => 0x02#5
  | .div _ _ _ => 0x03#5
  | .and _ _ _ => 0x04#5
  | .or _ _ _  => 0x05#5
  | .xor _ _ _ => 0x06#5
  | .not _ _   => 0x07#5
  | .ld _ _ _  => 0x08#5
  | .st _ _ _  => 0x09#5
  | .ldi _ _   => 0x0A#5
  | .lda _ _   => 0x0B#5
  | .jmp _     => 0x0C#5
  | .jz _ _    => 0x0D#5
  | .jnz _ _   => 0x0E#5
  | .call _    => 0x0F#5
  | .inp _ _   => 0x10#5
  | .out _ _   => 0x11#5
  | .halt      => 0x12#5
  | .nop       => 0x13#5

/-- The canonical word of an instruction (R88, R98). -/
def encode (i : Instr) : Word :=
  let op := opcodeOf i
  match i with
  | .add rd rs imm5 => encodeR op (regBits rd) (regBits rs) imm5
  | .sub rd rs imm5 => encodeR op (regBits rd) (regBits rs) imm5
  | .mul rd rs imm5 => encodeR op (regBits rd) (regBits rs) imm5
  | .div rd rs imm5 => encodeR op (regBits rd) (regBits rs) imm5
  | .and rd rs imm5 => encodeR op (regBits rd) (regBits rs) imm5
  | .or rd rs imm5  => encodeR op (regBits rd) (regBits rs) imm5
  | .xor rd rs imm5 => encodeR op (regBits rd) (regBits rs) imm5
  | .not rd rs      => encodeR op (regBits rd) (regBits rs) 0#5
  | .ld rd rs imm5  => encodeR op (regBits rd) (regBits rs) imm5
  | .st rd rs imm5  => encodeR op (regBits rd) (regBits rs) imm5
  | .ldi rd imm8    => encodeI op (regBits rd) imm8
  | .lda rd imm8    => encodeI op (regBits rd) imm8
  | .jmp imm8       => encodeI op 0#3 imm8
  | .jz rd imm5     => encodeR op (regBits rd) 0#3 imm5
  | .jnz rd imm5    => encodeR op (regBits rd) 0#3 imm5
  | .call rd        => encodeR op (regBits rd) 0#3 0#5
  | .inp rd dev     => encodeR op (regBits rd) 0#3 dev
  | .out dev rs     => encodeR op 0#3 (regBits rs) dev
  | .halt           => encodeN op
  | .nop            => encodeN op

/-! The two bytes of a word in memory (R54 to R56, R59). -/

/-- The word whose bytes are `b0` at the lower address and `b1` at the higher one (R54). -/
def wordOfBytes (order : ByteOrder) (b0 b1 : Byte) : Word :=
  match order with
  | .little => b1 ++ b0
  | .big => b0 ++ b1

/-- The byte a word has at the lower address (R55). -/
def byteAtLow (order : ByteOrder) (v : Word) : Byte :=
  match order with
  | .little => v.extractLsb' 0 8
  | .big => v.extractLsb' 8 8

/-- The byte a word has at the higher address (R55). -/
def byteAtHigh (order : ByteOrder) (v : Word) : Byte :=
  match order with
  | .little => v.extractLsb' 8 8
  | .big => v.extractLsb' 0 8

/-- The 16-bit word of an opcode-table word of `nbits` bits, the bits above them zero; none where the table's word
is longer than an instruction (R80). -/
def tableWord (nbits w : Nat) : Option Word :=
  if nbits ≤ 16 then some (BitVec.ofNat 16 (w % 2 ^ nbits)) else none

/-- The instruction the decoder reads from a word of spec/opcode_table.json laid out in memory in the default byte
order and read back from there. -/
def decodeTableWord (nbits w : Nat) : Option Instr :=
  match tableWord nbits w with
  | none => none
  | some v =>
    let order := Machine.defaultConfig.byteOrder
    match decode Machine.defaultConfig.unusedFields (wordOfBytes order (byteAtLow order v) (byteAtHigh order v)) with
    | .instr i => some i
    | .reservedOpcode _ => none
    | .unusedFieldSet _ => none

end Sys2Proof
end

