-- ==== Sys2Proof/Machine/Ops.lean ====
section
/-! DEFINITION. The shared operations: memory (R50 to R59), the program counter (R26, R27), the fetch (R59), the
exception (R200 to R204), the end of a run (R238), and what the host does before a run (R230, R233). -/

namespace Sys2Proof.Machine

/-! Field updates. -/

/-- `pc <- t` (R8). -/
def setPc (t : Word) (s : State) : State := { s with pc := t }
/-- Write all four flags. -/
def setFlags (f : Flags) (s : State) : State := { s with flags := f }
/-- Write the run state. -/
def setRun (r : RunState) (s : State) : State := { s with run := r }
/-- Replace memory. -/
def setMem (m : Memory) (s : State) : State := { s with mem := m }
/-- Replace the environment. -/
def setEnv (e : Environment) (s : State) : State := { s with env := e }
/-- Append one event to the device trace (R181). -/
def record (e : DevEvent) (s : State) : State := { s with trace := s.trace ++ [e] }

/-! Memory as a list of cells. -/

/-- The byte listed at an address, if one is. -/
def lookupCell : Memory → Nat → Option Byte
  | [], _ => none
  | (k, v) :: m, a => if k = a then some v else lookupCell m a

/-- List a byte at an address, in its place. -/
def storeCell : Memory → Nat → Byte → Memory
  | [], a, b => [(a, b)]
  | (k, v) :: m, a, b =>
    if a < k then (a, b) :: (k, v) :: m
    else if a = k then (a, b) :: m
    else (k, v) :: storeCell m a b

/-- The addresses rise strictly from `lo` on and lie inside the 128 KB (R50). -/
def cellsRiseFrom : Nat → Memory → Bool
  | _, [] => true
  | lo, (k, _) :: m => decide (lo ≤ k) && decide (k < memBytes) && cellsRiseFrom (k + 1) m

/-- The canonical form of memory. An unlisted address reads as no value (`lookupCell … = none`), so no entry can equal
it. -/
def Memory.wf (m : Memory) : Bool := cellsRiseFrom 0 m

/-- `M[a]` (R50, R54 with n = 1): the byte listed there, or the free value of a byte that nothing has written
(R40, U12; assumption 3). -/
def readByte (a : Addr) (s : State) : Byte :=
  match lookupCell s.mem a.toNat with
  | some b => b
  | none => Config.unwrittenByte a

/-- `M[a] <- b` (R55 for one byte). -/
def writeByte (a : Addr) (b : Byte) (s : State) : State := setMem (storeCell s.mem a.toNat b) s

/-- Whether a 2-byte access at `a` is performed: at an even address always, at an odd one only under
`MISALIGNED = split` (R57; assumption 9). -/
def accessAllowed (mis : Misaligned) (a : Addr) : Bool :=
  match mis with
  | .fault => !a.getLsbD 0
  | .split => true

/-- `MemRead(a, 2)` (R54) in the machine's byte order; none where the access is misaligned (R57). The second byte is at
`(a + 1) mod 2^17`. -/
def readWord (a : Addr) (s : State) : Option Word :=
  if accessAllowed s.config.misaligned a then
    some (wordOfBytes s.config.byteOrder (readByte a s) (readByte (a + 1#17) s))
  else none

/-- Store the two bytes of `v` at `a` and `(a + 1) mod 2^17` in the machine's byte order (R55). -/
def storeWord (a : Addr) (v : Word) (s : State) : State :=
  writeByte (a + 1#17) (byteAtHigh s.config.byteOrder v) (writeByte a (byteAtLow s.config.byteOrder v) s)

/-- `MemWrite(a, 2, v)` (R55); none, and nothing written, where the access is misaligned (R57). -/
def writeWord (a : Addr) (v : Word) (s : State) : Option State :=
  if accessAllowed s.config.misaligned a then some (storeWord a v s) else none

/-! The program counter. -/

/-- `npc`, the address of the following instruction: `(pc + 2) mod 2^16`; none at the top of the 16-bit space under
`PC_WRAP = fault` (R26, R27; assumption 8). -/
def nextPc (s : State) : Option Word :=
  match s.config.pcWrap with
  | .wrap => some (s.pc + 2#16)
  | .fault => if s.pc.toNat + 2 < 65536 then some (s.pc + 2#16) else none

/-- End an instruction that does not transfer control: `pc <- npc` (R26). -/
def advance (s : State) : Host.Outcome State Fault Refusal :=
  match nextPc s with
  | none => .fault (.pcWrap s.pc)
  | some n => .next (setPc n s)

/-- End an instruction that transfers control: `pc <- t`, unchecked (R27, R160). -/
def jumpTo (t : Word) (s : State) : Host.Outcome State Fault Refusal := .next (setPc t s)

/-- `Fetch(pc)` (R59): the word at `zext_17(pc)`, or `MisalignedFetch`. -/
def fetch (s : State) : Except Fault Word :=
  match readWord (physical s.pc) s with
  | none => .error (.misalignedFetch s.pc)
  | some w => .ok w

/-! The exception. -/

/-- The spec's label for a cause (R201); it has no meaning to the hardware. -/
def Cause.number : Cause → Nat
  | .divideByZero => 0

/-- Taking an exception (R202, R203): no register, flag or memory byte is written, `pc` stays at the instruction, and
the run state records the cause and the address. There is no return from it (R207). -/
def takeException (c : Cause) (s : State) : Host.Outcome State Fault Refusal :=
  .next (setRun (.exception c s.pc) s)

/-! The host before a run (R230, R233). -/

/-- Write bytes to consecutive memory addresses from `a` on. -/
def loadBytes : Addr → List Byte → State → State
  | _, [], s => s
  | a, b :: bs, s => loadBytes (a + 1#17) bs (writeByte a b s)

/-- Write the program image, then start the core: `Running` at `RESET_PC` (R230; assumption 17). -/
def boot (base : Addr) (image : List Byte) (s : State) : State :=
  setRun .running (setPc resetPc (loadBytes base image s))

end Sys2Proof.Machine
end

