-- ==== Sys2Proof/Machine/Arithmetic.lean ====
section
/-! DEFINITION. ADD, SUB, MUL, DIV (R110 to R116). The operands are read from the state before any result is
written. -/

namespace Sys2Proof.Machine

/-- ADD Rd, Rs, Imm (R111). -/
def execAdd (rd rs : Reg) (imm5 : BitVec 5) (s : State) : Host.Outcome State Fault Refusal :=
  let a := readReg rs s
  let b := regImm s.config.rimmExt imm5
  advance (setFlags (addFlags a b) (writeReg rd (addResult a b) s))

/-- SUB Rd, Rs, Imm (R112). -/
def execSub (rd rs : Reg) (imm5 : BitVec 5) (s : State) : Host.Outcome State Fault Refusal :=
  let a := readReg rs s
  let b := regImm s.config.rimmExt imm5
  advance (setFlags (subFlags s.config.subCarry a b) (writeReg rd (subResult a b) s))

/-- MUL Rd, Rs, Imm (R113). -/
def execMul (rd rs : Reg) (imm5 : BitVec 5) (s : State) : Host.Outcome State Fault Refusal :=
  let a := readReg rs s
  let b := regImm s.config.rimmExt imm5
  advance (setFlags (mulFlags a b s.flags) (writeReg rd (mulResult a b) s))

/-- DIV Rd, Rs, Imm (R114); a zero divisor raises DivideByZero before any write (R200, R202). -/
def execDiv (rd rs : Reg) (imm5 : BitVec 5) (s : State) : Host.Outcome State Fault Refusal :=
  let a := readReg rs s
  let b := regImm s.config.rimmExt imm5
  if b = 0x0000#16 then takeException .divideByZero s
  else advance (setFlags (divFlags a b s.flags) (writeReg rd (divResult a b) s))

end Sys2Proof.Machine
end

