-- ==== Sys2Proof/Machine/ControlFlow.lean ====
section
/-! DEFINITION. JMP, JZ, JNZ, CALL (R160 to R169). Targets are absolute byte addresses and are not checked when
written (R160); there are no delay slots (R169); no flag is read or written. -/

namespace Sys2Proof.Machine

/-- JMP Imm (R161). -/
def execJmp (imm8 : BitVec 8) (s : State) : Host.Outcome State Fault Refusal :=
  jumpTo (jmpTarget imm8) s

/-- JZ Rd, Imm (R162): the test is on the register, not on the Z flag. -/
def execJz (rd : Reg) (imm5 : BitVec 5) (s : State) : Host.Outcome State Fault Refusal :=
  if readReg rd s = 0x0000#16 then jumpTo (branchTarget imm5) s else advance s

/-- JNZ Rd, Imm (R163). -/
def execJnz (rd : Reg) (imm5 : BitVec 5) (s : State) : Host.Outcome State Fault Refusal :=
  if readReg rd s ≠ 0x0000#16 then jumpTo (branchTarget imm5) s else advance s

/-- CALL Rd (R166): `t = x[rd]; x[3] <- npc; pc <- t`, the target read before R3 is written. -/
def execCall (rd : Reg) (s : State) : Host.Outcome State Fault Refusal :=
  match nextPc s with
  | none => .fault (.pcWrap s.pc)
  | some npc => jumpTo (readReg rd s) (writeReg .r3 npc s)

end Sys2Proof.Machine
end

