-- ==== Sys2Proof/Machine/Devices.lean ====
section
/-! DEFINITION. The device space (R181 to R184): which numbers name a device, whether the environment holds an access,
what a DevRead returns, and what a completed access leaves. -/

namespace Sys2Proof.Machine

/-- The device numbers valid in IN (R183). -/
def inputDevice (d : BitVec 5) : Option InputDevice :=
  match d.toNat with
  | 0 => some .keyboard
  | 1 => some .timer
  | 2 => some .random
  | _ => none

/-- The device numbers valid in OUT (R184); the numbering is separate from IN's. -/
def outputDevice (d : BitVec 5) : Option OutputDevice :=
  match d.toNat with
  | 0 => some .console
  | 1 => some .graphics
  | 2 => some .disk
  | _ => none

/-- The environment's answer to the next attempt: `true` means the device is not available (R182). -/
def accessHeld (e : Environment) : Bool :=
  match e.holds with
  | [] => e.holdsRest
  | h :: _ => h

/-- The environment after it has answered one attempt. -/
def answered (e : Environment) : Environment := { e with holds := e.holds.tail }

/-- An attempt the environment holds: nothing of the machine changes and the same instruction is offered again; only
the environment moves on (R182). -/
def waitForDevice (s : State) : Host.Outcome State Fault Refusal := .next (setEnv (answered s.env) s)

/-- The values the environment has ready for an input device. -/
def supplied (dev : InputDevice) (e : Environment) : List Word :=
  match dev with
  | .keyboard => e.keyboard
  | .timer => e.timer
  | .random => e.random

/-- The environment after one value of an input device is consumed: the one it had ready, or a free one. -/
def consumed (dev : InputDevice) (e : Environment) : Environment :=
  match supplied dev e with
  | [] => { e with draws := e.draws + 1 }
  | _ :: rest =>
    match dev with
    | .keyboard => { e with keyboard := rest }
    | .timer => { e with timer := rest }
    | .random => { e with random := rest }

/-- `DevRead(d)` (R181, R183): the value the environment supplies, else a FREE VALUE (assumption 4). -/
def devReadValue (dev : InputDevice) (e : Environment) : Word :=
  match supplied dev e with
  | [] => Config.freeInput e.draws
  | v :: _ => v

/-- The state after a completed DevRead: the attempt answered, the value consumed, `In(d, v)` recorded (R181). -/
def afterDevRead (dev : InputDevice) (s : State) : State :=
  record (.input dev (devReadValue dev s.env)) (setEnv (consumed dev (answered s.env)) s)

/-- The state after a completed DevWrite: the attempt answered, `Out(d, v)` recorded, nothing else (R181, R184). -/
def afterDevWrite (dev : OutputDevice) (v : Word) (s : State) : State :=
  record (.output dev v) (setEnv (answered s.env) s)

end Sys2Proof.Machine
end

