-- ==== Sys2Proof/Machine/InputOutput.lean ====
section
/-! DEFINITION. IN and OUT (R187, R188). The device number is checked before any wait (R205). -/

namespace Sys2Proof.Machine

/-- IN Rd, Imm (R187). With `rd = 0` the read still takes place and its value is discarded. -/
def execIn (rd : Reg) (dev : BitVec 5) (s : State) : Host.Outcome State Fault Refusal :=
  match inputDevice dev with
  | none => .fault (.unknownDevice s.pc dev)
  | some d =>
    if accessHeld s.env then waitForDevice s
    else advance (writeReg rd (devReadValue d s.env) (afterDevRead d s))

/-- OUT Imm, Rs (R188). -/
def execOut (dev : BitVec 5) (rs : Reg) (s : State) : Host.Outcome State Fault Refusal :=
  match outputDevice dev with
  | none => .fault (.unknownDevice s.pc dev)
  | some d =>
    if accessHeld s.env then waitForDevice s
    else advance (afterDevWrite d (readReg rs s) s)

end Sys2Proof.Machine
end

