-- ==== Sys2Proof/Machine/Logical.lean ====
section
/-! DEFINITION. AND, OR, XOR, NOT (R130 to R133). None writes a flag (R31). -/

namespace Sys2Proof.Machine

/-- AND Rd, Rs, Imm (R130). -/
def execAnd (rd rs : Reg) (imm5 : BitVec 5) (s : State) : Host.Outcome State Fault Refusal :=
  advance (writeReg rd (readReg rs s &&& regImm s.config.rimmExt imm5) s)

/-- OR Rd, Rs, Imm (R131). -/
def execOr (rd rs : Reg) (imm5 : BitVec 5) (s : State) : Host.Outcome State Fault Refusal :=
  advance (writeReg rd (readReg rs s ||| regImm s.config.rimmExt imm5) s)

/-- XOR Rd, Rs, Imm (R132). -/
def execXor (rd rs : Reg) (imm5 : BitVec 5) (s : State) : Host.Outcome State Fault Refusal :=
  advance (writeReg rd (readReg rs s ^^^ regImm s.config.rimmExt imm5) s)

/-- NOT Rd, Rs (R133). -/
def execNot (rd rs : Reg) (s : State) : Host.Outcome State Fault Refusal :=
  advance (writeReg rd (~~~(readReg rs s)) s)

end Sys2Proof.Machine
end

