-- ==== Sys2Proof/Machine/MemoryAccess.lean ====
section
/-! DEFINITION. LD, ST, LDI, LDA (R140 to R144). None writes a flag (R31). -/

namespace Sys2Proof.Machine

/-- The effective address of LD with base `rs` and of ST with base `rd` (R140). -/
def dataAddress (base : Reg) (imm5 : BitVec 5) (s : State) : Word :=
  effectiveAddress (readReg base s) (regImm s.config.rimmExt imm5)

/-- LD Rd, [Rs+Imm] (R141). -/
def execLd (rd rs : Reg) (imm5 : BitVec 5) (s : State) : Host.Outcome State Fault Refusal :=
  let ea := dataAddress rs imm5 s
  match readWord (physical ea) s with
  | none => .fault (.misalignedData s.pc ea)
  | some v => advance (writeReg rd v s)

/-- ST [Rd+Imm], Rs (R142): `rd` is the base, `rs` the data. -/
def execSt (rd rs : Reg) (imm5 : BitVec 5) (s : State) : Host.Outcome State Fault Refusal :=
  let ea := dataAddress rd imm5 s
  match writeWord (physical ea) (readReg rs s) s with
  | none => .fault (.misalignedData s.pc ea)
  | some t => advance t

/-- LDI Rd, Imm (R143). -/
def execLdi (rd : Reg) (imm8 : BitVec 8) (s : State) : Host.Outcome State Fault Refusal :=
  advance (writeReg rd (ldiImm imm8) s)

/-- LDA Rd, Imm (R144). -/
def execLda (rd : Reg) (imm8 : BitVec 8) (s : State) : Host.Outcome State Fault Refusal :=
  advance (writeReg rd (ldaImm imm8) s)

end Sys2Proof.Machine
end

