-- ==== Sys2Proof/Machine/System.lean ====
section
/-! DEFINITION. HALT and NOP (R185, R186). -/

namespace Sys2Proof.Machine

/-- HALT (R185): `run_state <- Halted; pc <- npc`. -/
def execHalt (s : State) : Host.Outcome State Fault Refusal := advance (setRun .halted s)

/-- NOP (R186): `pc <- npc`. -/
def execNop (s : State) : Host.Outcome State Fault Refusal := advance s

end Sys2Proof.Machine
end

