-- ==== Sys2Proof/Machine/Dispatch.lean ====
section
/-! DEFINITION. Which meaning each instruction has (R87). -/

namespace Sys2Proof.Machine

def exec (i : Instr) (s : State) : Host.Outcome State Fault Refusal :=
  match i with
  | .add rd rs imm5 => Sys2Proof.Machine.execAdd rd rs imm5 s
  | .sub rd rs imm5 => Sys2Proof.Machine.execSub rd rs imm5 s
  | .mul rd rs imm5 => Sys2Proof.Machine.execMul rd rs imm5 s
  | .div rd rs imm5 => Sys2Proof.Machine.execDiv rd rs imm5 s
  | .and rd rs imm5 => Sys2Proof.Machine.execAnd rd rs imm5 s
  | .or rd rs imm5 => Sys2Proof.Machine.execOr rd rs imm5 s
  | .xor rd rs imm5 => Sys2Proof.Machine.execXor rd rs imm5 s
  | .not rd rs => Sys2Proof.Machine.execNot rd rs s
  | .ld rd rs imm5 => Sys2Proof.Machine.execLd rd rs imm5 s
  | .st rd rs imm5 => Sys2Proof.Machine.execSt rd rs imm5 s
  | .ldi rd imm8 => Sys2Proof.Machine.execLdi rd imm8 s
  | .lda rd imm8 => Sys2Proof.Machine.execLda rd imm8 s
  | .jmp imm8 => Sys2Proof.Machine.execJmp imm8 s
  | .jz rd imm5 => Sys2Proof.Machine.execJz rd imm5 s
  | .jnz rd imm5 => Sys2Proof.Machine.execJnz rd imm5 s
  | .call rd => Sys2Proof.Machine.execCall rd s
  | .inp rd dev => Sys2Proof.Machine.execIn rd dev s
  | .out dev rs => Sys2Proof.Machine.execOut dev rs s
  | .halt => Sys2Proof.Machine.execHalt s
  | .nop => Sys2Proof.Machine.execNop s

end Sys2Proof.Machine
end

