-- ==== Sys2Proof/Machine/Step.lean ====
section
/-! DEFINITION. One step: fetch at pc, decode, execute, in the order of R205; and the placing of one instruction where
the next step fetches it. -/

namespace Sys2Proof.Machine

/-- One step of the core (R14, R37, R205). `Halted` and `Exception` are terminal: nothing is fetched and nothing changes
(R185, R202; assumption 7). -/
def step (s : State) : Host.Outcome State Fault Refusal :=
  match s.run with
  | .running =>
    match fetch s with
    | .error f => .fault f
    | .ok w =>
      match decode s.config.unusedFields w with
      | .instr i => exec i s
      | .reservedOpcode w' => .fault (.illegalInstruction s.pc w')
      | .unusedFieldSet w' => .fault (.illegalInstruction s.pc w')
  | .halted => .next s
  | .exception _ _ => .next s

/-- The state with one instruction word (numbered as the opcode table numbers it, the bits above `nbits` zero) stored at
`pc` in the machine's byte order and the core running, so that the next step fetches it (assumption 11). -/
def State.withFetchWord (s : State) (nbits w : Nat) : State :=
  setRun .running (storeWord (physical s.pc) (BitVec.ofNat 16 (w % 2 ^ nbits)) s)

end Sys2Proof.Machine
end

