-- ==== Sys2Proof/WellFormed.lean ====
section
/-! DEFINITION. What an assembly instruction must meet to have an encoding (R94, R95): the right operands, register
numbers 0 to 7, every immediate in its range. A term of `Instr` needs no check: the types of its operands are the
widths of the fields, so each term has exactly one canonical word (R98). -/

namespace Sys2Proof

/-- The kinds of operand R94 and R95 tell apart. -/
inductive OperandKind where
  /-- a register, R0 to R7 -/
  | reg
  /-- a Register-format immediate -/
  | imm5
  /-- `[register+offset]`, the offset a Register-format immediate -/
  | mem
  /-- LDI's immediate, -128 to 127 -/
  | signed8
  /-- LDA's immediate and JMP's target, 0 to 255 -/
  | unsigned8
  /-- JZ's and JNZ's target, 0 to 31 -/
  | target5
  /-- a device number, 0 to 31 -/
  | device
deriving DecidableEq, Repr

/-- Each instruction's operands in the source's order (R94). -/
def Mnemonic.operandKinds : Mnemonic → List OperandKind
  | .add  => [.reg, .reg, .imm5]
  | .sub  => [.reg, .reg, .imm5]
  | .mul  => [.reg, .reg, .imm5]
  | .div  => [.reg, .reg, .imm5]
  | .and  => [.reg, .reg, .imm5]
  | .or   => [.reg, .reg, .imm5]
  | .xor  => [.reg, .reg, .imm5]
  | .not  => [.reg, .reg]
  | .ld   => [.reg, .mem]
  | .st   => [.mem, .reg]
  | .ldi  => [.reg, .signed8]
  | .lda  => [.reg, .unsigned8]
  | .jmp  => [.unsigned8]
  | .jz   => [.reg, .target5]
  | .jnz  => [.reg, .target5]
  | .call => [.reg]
  | .inp  => [.reg, .device]
  | .out  => [.device, .reg]
  | .halt => []
  | .nop  => []

/-- The range of a Register-format immediate: 0 to 31 (R95), or -16 to 15 under `RIMM_EXT = sign` (R86). -/
def imm5InRange (ext : ImmExt) (v : Int) : Bool :=
  match ext with
  | .zero => decide (0 ≤ v) && decide (v ≤ 31)
  | .sign => decide (-16 ≤ v) && decide (v ≤ 15)

/-- Whether an operand is of the kind asked for and in its range (R94, R95). A label has to be resolved first
(R96), so an unresolved one is refused. -/
def OperandKind.accepts (ext : ImmExt) : OperandKind → Operand → Bool
  | .reg,       .reg n   => decide (n ≤ 7)
  | .imm5,      .imm v   => imm5InRange ext v
  | .mem,       .mem b v => decide (b ≤ 7) && imm5InRange ext v
  | .signed8,   .imm v   => decide (-128 ≤ v) && decide (v ≤ 127)
  | .unsigned8, .imm v   => decide (0 ≤ v) && decide (v ≤ 255)
  | .target5,   .imm v   => decide (0 ≤ v) && decide (v ≤ 31)
  | .device,    .imm v   => decide (0 ≤ v) && decide (v ≤ 31)
  | _, _ => false

/-- Operand by operand, with no operand missing or left over. -/
def acceptsAll (ext : ImmExt) : List OperandKind → List Operand → Bool
  | [], [] => true
  | k :: ks, o :: os => k.accepts ext o && acceptsAll ext ks os
  | [], _ :: _ => false
  | _ :: _, [] => false

/-- "A value out of range has no encoding and must be rejected, never truncated" (R95). -/
def AsmInstr.wellFormed (ext : ImmExt) (a : AsmInstr) : Bool :=
  acceptsAll ext a.mnemonic.operandKinds a.operands

end Sys2Proof
end

