-- ==== Sys2Proof/Machine/Assembler.lean ====
section
/-! DEFINITION. The assembler (R93 to R98; assumption 14): text to operands, labels to addresses, operands to an instruction and its
canonical word, and an instruction back to its operands. -/

namespace Sys2Proof.Machine

/-! Operands to instructions (R94, R95, R98). -/

/-- The register of a number already checked to be 0 to 7 (R20). -/
def regOfNat (n : Nat) : Reg := regOfBits (BitVec.ofNat 3 n)

/-- Put checked operands into the fields R94 names: in ST the bracketed register goes in `rd`, in OUT the number comes
first. -/
def instrOfOperands : Mnemonic → List Operand → Option Instr
  | .add,  [.reg d, .reg s, .imm v] => some (.add (regOfNat d) (regOfNat s) (BitVec.ofInt 5 v))
  | .sub,  [.reg d, .reg s, .imm v] => some (.sub (regOfNat d) (regOfNat s) (BitVec.ofInt 5 v))
  | .mul,  [.reg d, .reg s, .imm v] => some (.mul (regOfNat d) (regOfNat s) (BitVec.ofInt 5 v))
  | .div,  [.reg d, .reg s, .imm v] => some (.div (regOfNat d) (regOfNat s) (BitVec.ofInt 5 v))
  | .and,  [.reg d, .reg s, .imm v] => some (.and (regOfNat d) (regOfNat s) (BitVec.ofInt 5 v))
  | .or,   [.reg d, .reg s, .imm v] => some (.or (regOfNat d) (regOfNat s) (BitVec.ofInt 5 v))
  | .xor,  [.reg d, .reg s, .imm v] => some (.xor (regOfNat d) (regOfNat s) (BitVec.ofInt 5 v))
  | .not,  [.reg d, .reg s]         => some (.not (regOfNat d) (regOfNat s))
  | .ld,   [.reg d, .mem b v]       => some (.ld (regOfNat d) (regOfNat b) (BitVec.ofInt 5 v))
  | .st,   [.mem b v, .reg s]       => some (.st (regOfNat b) (regOfNat s) (BitVec.ofInt 5 v))
  | .ldi,  [.reg d, .imm v]         => some (.ldi (regOfNat d) (BitVec.ofInt 8 v))
  | .lda,  [.reg d, .imm v]         => some (.lda (regOfNat d) (BitVec.ofInt 8 v))
  | .jmp,  [.imm v]                 => some (.jmp (BitVec.ofInt 8 v))
  | .jz,   [.reg d, .imm v]         => some (.jz (regOfNat d) (BitVec.ofInt 5 v))
  | .jnz,  [.reg d, .imm v]         => some (.jnz (regOfNat d) (BitVec.ofInt 5 v))
  | .call, [.reg d]                 => some (.call (regOfNat d))
  | .inp,  [.reg d, .imm v]         => some (.inp (regOfNat d) (BitVec.ofInt 5 v))
  | .out,  [.imm v, .reg s]         => some (.out (BitVec.ofInt 5 v) (regOfNat s))
  | .halt, []                       => some .halt
  | .nop,  []                       => some .nop
  | _, _ => none

/-- The instruction of an assembly instruction; none where it has no encoding: "rejected, never truncated" (R95). -/
def assemble (ext : ImmExt) (a : AsmInstr) : Option Instr :=
  if a.wellFormed ext then instrOfOperands a.mnemonic a.operands else none

/-- A register's number as an operand. -/
def regOperand (r : Reg) : Operand := .reg (regBits r).toNat

/-- A Register-format immediate as the number it stands for (R86a). -/
def immValue (ext : ImmExt) (imm5 : BitVec 5) : Int :=
  match ext with
  | .zero => (imm5.toNat : Int)
  | .sign => imm5.toInt

/-- The assembly instruction of an instruction (R94). -/
def disassemble (ext : ImmExt) : Instr → AsmInstr
  | .add d s v => ⟨.add, [regOperand d, regOperand s, .imm (immValue ext v)]⟩
  | .sub d s v => ⟨.sub, [regOperand d, regOperand s, .imm (immValue ext v)]⟩
  | .mul d s v => ⟨.mul, [regOperand d, regOperand s, .imm (immValue ext v)]⟩
  | .div d s v => ⟨.div, [regOperand d, regOperand s, .imm (immValue ext v)]⟩
  | .and d s v => ⟨.and, [regOperand d, regOperand s, .imm (immValue ext v)]⟩
  | .or d s v  => ⟨.or, [regOperand d, regOperand s, .imm (immValue ext v)]⟩
  | .xor d s v => ⟨.xor, [regOperand d, regOperand s, .imm (immValue ext v)]⟩
  | .not d s   => ⟨.not, [regOperand d, regOperand s]⟩
  | .ld d b v  => ⟨.ld, [regOperand d, .mem (regBits b).toNat (immValue ext v)]⟩
  | .st b s v  => ⟨.st, [.mem (regBits b).toNat (immValue ext v), regOperand s]⟩
  | .ldi d v   => ⟨.ldi, [regOperand d, .imm v.toInt]⟩
  | .lda d v   => ⟨.lda, [regOperand d, .imm (v.toNat : Int)]⟩
  | .jmp v     => ⟨.jmp, [.imm (v.toNat : Int)]⟩
  | .jz d v    => ⟨.jz, [regOperand d, .imm (v.toNat : Int)]⟩
  | .jnz d v   => ⟨.jnz, [regOperand d, .imm (v.toNat : Int)]⟩
  | .call d    => ⟨.call, [regOperand d]⟩
  | .inp d v   => ⟨.inp, [regOperand d, .imm (v.toNat : Int)]⟩
  | .out v s   => ⟨.out, [.imm (v.toNat : Int), regOperand s]⟩
  | .halt      => ⟨.halt, []⟩
  | .nop       => ⟨.nop, []⟩

/-! Labels (R96): a label stands for the absolute byte address of an instruction. -/

/-- The address a label stands for, if it is defined. -/
def labelAddress : List (List Char × Nat) → List Char → Option Nat
  | [], _ => none
  | (k, a) :: t, name => if k = name then some a else labelAddress t name

/-- Replace a label operand by the number it stands for; an undefined one stays and is then refused. -/
def resolveOperand (table : List (List Char × Nat)) : Operand → Operand
  | .label name =>
    match labelAddress table name with
    | some a => .imm (a : Int)
    | none => .label name
  | o => o

/-- Replace every label of an instruction (R96). -/
def resolveLabels (table : List (List Char × Nat)) (a : AsmInstr) : AsmInstr :=
  { a with operands := a.operands.map (resolveOperand table) }

/-- The labels of consecutive lines placed from `at0` on: each instruction takes 2 bytes (R26, R80). -/
def labelTable : Nat → List AsmLine → List (List Char × Nat)
  | _, [] => []
  | at0, l :: ls =>
    let rest := labelTable (if l.instr.isSome then at0 + 2 else at0) ls
    match l.label with
    | some name => (name, at0) :: rest
    | none => rest

/-- The words of consecutive lines under a label table; none as soon as one line has no encoding. -/
def wordsOfLines (ext : ImmExt) (table : List (List Char × Nat)) : List AsmLine → Option (List Word)
  | [] => some []
  | l :: ls =>
    match l.instr with
    | none => wordsOfLines ext table ls
    | some a =>
      match assemble ext (resolveLabels table a), wordsOfLines ext table ls with
      | some i, some ws => some (encode i :: ws)
      | _, _ => none

/-- Assemble lines placed from `origin` on. -/
def assembleLines (ext : ImmExt) (origin : Nat) (ls : List AsmLine) : Option (List Word) :=
  wordsOfLines ext (labelTable origin ls) ls

/-! Text to lines (R93, R94). -/

/-- Everything before the first `;` (R93). -/
def stripComment : List Char → List Char
  | [] => []
  | c :: cs => if c = ';' then [] else c :: stripComment cs

/-- Drop leading spaces. DESIGN CHOICE (assumption 14): a tab is no space. -/
def dropSpaces : List Char → List Char
  | [] => []
  | c :: cs => if c = ' ' then dropSpaces cs else c :: cs

/-- Drop leading and trailing spaces. -/
def trimSpaces (cs : List Char) : List Char := (dropSpaces (dropSpaces cs).reverse).reverse

/-- Split at every occurrence of a character. -/
def splitAt (c : Char) : List Char → List (List Char)
  | [] => [[]]
  | x :: xs =>
    match splitAt c xs with
    | [] => [[]]
    | w :: ws => if x = c then [] :: w :: ws else (x :: w) :: ws

/-- The text before and after the first occurrence of a character, if there is one. -/
def breakAt (c : Char) : List Char → Option (List Char × List Char)
  | [] => none
  | x :: xs =>
    if x = c then some ([], xs)
    else
      match breakAt c xs with
      | some (l, r) => some (x :: l, r)
      | none => none

/-- A digit's value in base 16. DESIGN CHOICE (assumption 14): `a` to `f` are accepted beside `A` to `F`; R93 does not state
whether a lower-case spelling is. -/
def digitValue (c : Char) : Option Nat :=
  let n := c.toNat
  if 48 ≤ n ∧ n ≤ 57 then some (n - 48)
  else if 65 ≤ n ∧ n ≤ 70 then some (n - 55)
  else if 97 ≤ n ∧ n ≤ 102 then some (n - 87)
  else none

/-- Digits of a base, after an accumulated value. -/
def digitsValue (base : Nat) : Nat → List Char → Option Nat
  | acc, [] => some acc
  | acc, c :: cs =>
    match digitValue c with
    | some d => if d < base then digitsValue base (acc * base + d) cs else none
    | none => none

/-- A number: decimal, or hexadecimal after `0x` (R93). DESIGN CHOICE (assumption 14): there is no binary and no character
literal and no prefix `0X`, and leading zeros of a decimal number count for nothing; R93 does not state whether an
assembler accepts them. -/
def parseNat (cs : List Char) : Option Nat :=
  match cs with
  | [] => none
  | '0' :: 'x' :: h :: hs => digitsValue 16 0 (h :: hs)
  | d :: ds => digitsValue 10 0 (d :: ds)

/-- A number or `-` and a number. DESIGN CHOICE (assumption 14): a negative number is accepted, as the spec's own listings
write it, while a plus sign and an expression such as `2+3` are rejected; R93 and 91_not_in_source.md N30-7 do not state
whether an assembler accepts them. -/
def parseInt : List Char → Option Int
  | '-' :: cs => (parseNat cs).map (fun n => -(n : Int))
  | cs => (parseNat cs).map (fun n => (n : Int))

/-- A register, `R0` to `R7` (R22, R93). DESIGN CHOICE (assumption 14): with a lower-case `r` it is no register. -/
def parseReg : List Char → Option Nat
  | ['R', c] =>
    match digitValue c with
    | some d => if d ≤ 7 then some d else none
    | none => none
  | _ => none

/-- `R<base>+<off>`, the inside of the brackets (R94). DESIGN CHOICE (assumption 14): a space inside the brackets is
rejected, and so are the form without `+<off>`, the form `R<base>-<off>`, and an offset that is an expression or a
label; the source shows none of them. -/
def parseMem (cs : List Char) : Option Operand :=
  match breakAt '+' cs with
  | none => none
  | some (b, off) =>
    match parseReg b, parseInt off with
    | some n, some v => some (.mem n v)
    | _, _ => none

/-- DESIGN CHOICE (assumption 14): a label's name begins with a letter or an underscore (the source's one example is
`label`); the characters after the first are not checked, a plus or minus sign among them. -/
def isNameStart (c : Char) : Bool := c.isAlpha || c == '_'

/-- One operand (R93, R94, R96). DESIGN CHOICE (assumption 14): no operand is an expression (91_not_in_source.md N30-7);
`2+3` is rejected, `label+2` is read whole as the name of a label, and a label may stand wherever an immediate may. -/
def parseOperand (cs : List Char) : Option Operand :=
  match parseReg cs with
  | some n => some (.reg n)
  | none =>
    match parseInt cs with
    | some v => some (.imm v)
    | none =>
      match cs with
      | [] => none
      | '[' :: rest =>
        match breakAt ']' rest with
        | some (inside, []) => parseMem inside
        | _ => none
      | c :: _ => if isNameStart c then some (.label cs) else none

/-- All operands, or none where one is no operand. -/
def parseOperands : List (List Char) → Option (List Operand)
  | [] => some []
  | o :: os =>
    match parseOperand (trimSpaces o), parseOperands os with
    | some x, some xs => some (x :: xs)
    | _, _ => none

/-- A mnemonic, in upper-case letters (R87, R93). DESIGN CHOICE (assumption 14): another spelling is rejected. -/
def parseMnemonic : List Char → Option Mnemonic
  | ['A', 'D', 'D'] => some .add
  | ['S', 'U', 'B'] => some .sub
  | ['M', 'U', 'L'] => some .mul
  | ['D', 'I', 'V'] => some .div
  | ['A', 'N', 'D'] => some .and
  | ['O', 'R'] => some .or
  | ['X', 'O', 'R'] => some .xor
  | ['N', 'O', 'T'] => some .not
  | ['L', 'D'] => some .ld
  | ['S', 'T'] => some .st
  | ['L', 'D', 'I'] => some .ldi
  | ['L', 'D', 'A'] => some .lda
  | ['J', 'M', 'P'] => some .jmp
  | ['J', 'Z'] => some .jz
  | ['J', 'N', 'Z'] => some .jnz
  | ['C', 'A', 'L', 'L'] => some .call
  | ['I', 'N'] => some .inp
  | ['O', 'U', 'T'] => some .out
  | ['H', 'A', 'L', 'T'] => some .halt
  | ['N', 'O', 'P'] => some .nop
  | _ => none

/-- A mnemonic, then its operands separated by commas (R93). -/
def parseInstr (cs : List Char) : Option AsmInstr :=
  match breakAt ' ' cs with
  | none => (parseMnemonic cs).map (fun m => ⟨m, []⟩)
  | some (m, rest) =>
    match parseMnemonic m, parseOperands (splitAt ',' rest) with
    | some k, some os => some ⟨k, os⟩
    | _, _ => none

/-- An instruction or nothing. -/
def parseOptInstr (cs : List Char) : Option (Option AsmInstr) :=
  match cs with
  | [] => some none
  | _ :: _ => (parseInstr cs).map some

/-- One line of assembly: a label definition `name:` (D30), an instruction, a comment, each of them optional (R93,
R96); none where it is no line of assembly. -/
def parseLine (text : List Char) : Option AsmLine :=
  let cs := trimSpaces (stripComment text)
  match breakAt ':' cs with
  | none => (parseOptInstr cs).map (fun i => ⟨none, i⟩)
  | some (name, rest) =>
    match trimSpaces name with
    | [] => none
    | n :: ns =>
      if isNameStart n then (parseOptInstr (dropSpaces rest)).map (fun i => ⟨some (n :: ns), i⟩) else none

/-- All lines of a text, split at the line ends. -/
def parseLines : List (List Char) → Option (List AsmLine)
  | [] => some []
  | l :: ls =>
    match parseLine l, parseLines ls with
    | some x, some xs => some (x :: xs)
    | _, _ => none

/-- The words of an assembly text placed from `origin` on. -/
def assembleText (ext : ImmExt) (origin : Nat) (text : List Char) : Option (List Word) :=
  match parseLines (splitAt '\n' text) with
  | none => none
  | some ls => assembleLines ext origin ls

end Sys2Proof.Machine
end

