-- ==== Sys2Proof/Safety.lean ====
section
/-! DEFINITION. The terms claims use: how a run ends (R238), what an instruction may change and read (R23, R31), when two
states are told apart by nothing a program sees, and the invariant of the machine. -/

namespace Sys2Proof.Machine

/-! Outcomes. -/

/-- The next state of an outcome, if it is one. -/
def nextOf : Host.Outcome State Fault Refusal → Option State
  | .next t => some t
  | .fault _ => none
  | .refused _ => none

/-- The fault of an outcome, if it is one. -/
def faultOf : Host.Outcome State Fault Refusal → Option Fault
  | .next _ => none
  | .fault f => some f
  | .refused _ => none

/-- How a run stands (R238): it goes on, it ended successfully (`Halted`), or it ended unsuccessfully. -/
inductive RunEnd where
  | continues
  | successful
  | unsuccessful
deriving DecidableEq, Repr

/-- The end of a run by its run state and, for the model's own terminal state, by the step's outcome (R37, R238). -/
def runEnd : Host.Outcome State Fault Refusal → RunEnd
  | .next t =>
    match t.run with
    | .running => .continues
    | .halted => .successful
    | .exception _ _ => .unsuccessful
  | .fault _ => .unsuccessful
  | .refused _ => .unsuccessful

/-! The next address (R26, R27). -/

/-- The instruction has a next address: always under `PC_WRAP = wrap` (assumption 8). -/
abbrev NpcDefined (s : State) : Prop := s.config.pcWrap = .wrap ∨ s.pc.toNat + 2 < 65536

/-- `npc = (pc + 2) mod 2^16` (R26). -/
def npcOf (s : State) : Word := BitVec.ofNat 16 ((s.pc.toNat + 2) % 65536)

/-- A 2-byte access at `a` is performed (R57). -/
abbrev Accessible (a : Addr) (s : State) : Prop := a.toNat % 2 = 0 ∨ s.config.misaligned = .split

/-! Encodings. -/

/-- Exactly the words `w` with `(w AND 0xF800) = m` decode to `f w` (R87). -/
def Selects (m : Word) (f : Word → Instr) : Prop :=
  ∀ w : Word, w &&& 0xF800#16 = m → decode .ignore w = .instr (f w)

/-! Frames. -/

/-- Every byte of memory reads as before. -/
def SameMemory (s t : State) : Prop := ∀ a : Addr, readByte a t = readByte a s

/-- Every register but those listed reads as before. -/
def SameRegsBut (rs : List Reg) (s t : State) : Prop := ∀ r : Reg, r ∉ rs → readReg r t = readReg r s

/-- The device trace and the environment are as before. -/
def SameDevices (s t : State) : Prop := t.trace = s.trace ∧ t.env = s.env

/-- What an instruction that writes only `rd`, the flags and the pc leaves unchanged. -/
def RegisterFrame (rd : Reg) (s t : State) : Prop :=
  SameRegsBut [rd] s t ∧ SameMemory s t ∧ SameDevices s t ∧ t.run = s.run ∧ t.config = s.config

/-- The registers an instruction writes (R23). -/
def registersWritten : Instr → List Reg
  | .add rd _ _ => [rd]
  | .sub rd _ _ => [rd]
  | .mul rd _ _ => [rd]
  | .div rd _ _ => [rd]
  | .and rd _ _ => [rd]
  | .or rd _ _ => [rd]
  | .xor rd _ _ => [rd]
  | .not rd _ => [rd]
  | .ld rd _ _ => [rd]
  | .st _ _ _ => []
  | .ldi rd _ => [rd]
  | .lda rd _ => [rd]
  | .jmp _ => []
  | .jz _ _ => []
  | .jnz _ _ => []
  | .call _ => [.r3]
  | .inp rd _ => [rd]
  | .out _ _ => []
  | .halt => []
  | .nop => []

/-- The registers an instruction reads (R23). -/
def registersRead : Instr → List Reg
  | .add _ rs _ => [rs]
  | .sub _ rs _ => [rs]
  | .mul _ rs _ => [rs]
  | .div _ rs _ => [rs]
  | .and _ rs _ => [rs]
  | .or _ rs _ => [rs]
  | .xor _ rs _ => [rs]
  | .not _ rs => [rs]
  | .ld _ rs _ => [rs]
  | .st rd rs _ => [rd, rs]
  | .ldi _ _ => []
  | .lda _ _ => []
  | .jmp _ => []
  | .jz rd _ => [rd]
  | .jnz rd _ => [rd]
  | .call rd => [rd]
  | .inp _ _ => []
  | .out _ rs => [rs]
  | .halt => []
  | .nop => []

/-- The four instructions the source gives a Flags line (R31). -/
def writesFlags : Instr → Bool
  | .add _ _ _ => true
  | .sub _ _ _ => true
  | .mul _ _ _ => true
  | .div _ _ _ => true
  | .and _ _ _ => false
  | .or _ _ _ => false
  | .xor _ _ _ => false
  | .not _ _ => false
  | .ld _ _ _ => false
  | .st _ _ _ => false
  | .ldi _ _ => false
  | .lda _ _ => false
  | .jmp _ => false
  | .jz _ _ => false
  | .jnz _ _ => false
  | .call _ => false
  | .inp _ _ => false
  | .out _ _ => false
  | .halt => false
  | .nop => false

/-- The four instructions that can write another value than `npc` into pc (R26, R28). -/
def transfersControl : Instr → Bool
  | .add _ _ _ => false
  | .sub _ _ _ => false
  | .mul _ _ _ => false
  | .div _ _ _ => false
  | .and _ _ _ => false
  | .or _ _ _ => false
  | .xor _ _ _ => false
  | .not _ _ => false
  | .ld _ _ _ => false
  | .st _ _ _ => false
  | .ldi _ _ => false
  | .lda _ _ => false
  | .jmp _ => true
  | .jz _ _ => true
  | .jnz _ _ => true
  | .call _ => true
  | .inp _ _ => false
  | .out _ _ => false
  | .halt => false
  | .nop => false

/-- IN or OUT with a device number the source defines (R183, R184). -/
def usesKnownDevice : Instr → Bool
  | .add _ _ _ => false
  | .sub _ _ _ => false
  | .mul _ _ _ => false
  | .div _ _ _ => false
  | .and _ _ _ => false
  | .or _ _ _ => false
  | .xor _ _ _ => false
  | .not _ _ => false
  | .ld _ _ _ => false
  | .st _ _ _ => false
  | .ldi _ _ => false
  | .lda _ _ => false
  | .jmp _ => false
  | .jz _ _ => false
  | .jnz _ _ => false
  | .call _ => false
  | .inp _ dev => decide (dev.toNat ≤ 2)
  | .out dev _ => decide (dev.toNat ≤ 2)
  | .halt => false
  | .nop => false

/-! Pairs of states. -/

/-- Two outcomes of the same kind, with related next states or the same reason. -/
def OutcomesRelated (r : State → State → Prop) : Host.Outcome State Fault Refusal → Host.Outcome State Fault Refusal → Prop
  | .next a, .next b => r a b
  | .fault f, .fault g => f = g
  | .refused f, .refused g => f = g
  | _, _ => False

/-- The states differ at most in the flags. -/
def AgreeButFlags (s t : State) : Prop :=
  t.regs = s.regs ∧ t.pc = s.pc ∧ t.run = s.run ∧ t.mem = s.mem ∧ t.trace = s.trace ∧ t.env = s.env ∧
    t.config = s.config

/-- The states differ at most in one register. -/
def AgreeButReg (r : Reg) (s t : State) : Prop :=
  SameRegsBut [r] s t ∧ t.pc = s.pc ∧ t.flags = s.flags ∧ t.run = s.run ∧ t.mem = s.mem ∧ t.trace = s.trace ∧
    t.env = s.env ∧ t.config = s.config

/-- The states differ at most in memory, and there only above 0x0FFFF (R52). -/
def AgreeBelow64K (s t : State) : Prop :=
  t.regs = s.regs ∧ t.pc = s.pc ∧ t.flags = s.flags ∧ t.run = s.run ∧ t.trace = s.trace ∧ t.env = s.env ∧
    t.config = s.config ∧ ∀ a : Addr, a.toNat < 65536 → readByte a t = readByte a s

/-- The same machine with the other byte order, the two bytes of every aligned word exchanged (R56). -/
def ByteOrderMirror (s t : State) : Prop :=
  t.regs = s.regs ∧ t.pc = s.pc ∧ t.flags = s.flags ∧ t.run = s.run ∧ t.trace = s.trace ∧ t.env = s.env ∧
    s.config.byteOrder = .little ∧ t.config = { s.config with byteOrder := .big } ∧
    s.config.misaligned = .fault ∧ ∀ a : Addr, readByte a t = readByte (a ^^^ 1#17) s

/-! The invariant. -/

/-- The instruction `i` lies at address `a` of the machine's memory. -/
def InstrAt (s : State) (a : Word) (i : Instr) : Prop :=
  ∃ w : Word, fetch (setPc a s) = .ok w ∧ decode s.config.unusedFields w = .instr i

/-- Memory is canonical; a stopped machine shows what stopped it: in `Exception(c, a)` pc is still `a` and a DIV with
immediate 0 lies there (R200, R202, R203), in `Halted` a HALT lies 2 before pc (R185). -/
structure State.Inv (s : State) : Prop where
  memory : s.mem.wf = true
  exception : ∀ c a, s.run = .exception c a → a = s.pc ∧ ∃ rd rs, InstrAt s a (.div rd rs 0#5)
  halted : s.run = .halted → InstrAt s (s.pc - 2#16) .halt

end Sys2Proof.Machine
end

