-- ==== Sys2Proof/Certificates/Slice0/Obligations.lean ====
section
/-! DEFINITION. What the provers are asked to prove of the model, from the numbered rules of spec/. Each holds for
every state, hence for every value of the OPEN parameters (R5), of the environment (R181, R182) and of the free
values. -/

open Sys2Proof Sys2Proof.Machine

/-! Encoding. -/

/-- R91, R98: decoding the canonical word of any instruction, under either reading of unused fields, gives the
instruction back with every operand. -/
def Obligations.DecodeOfEncodeIsIdentity : Prop :=
  ∀ (u : UnusedFields) (i : Instr), decode u (encode i) = .instr i

/-- R88, R98: the strict decoder accepts canonical words only. -/
def Obligations.StrictDecoderAcceptsCanonicalWordsOnly : Prop :=
  ∀ (w : Word) (i : Instr), decode .fault w = .instr i → encode i = w

/-- R88, R91: two words decode to one instruction exactly when they differ only in its unused fields. -/
def Obligations.SameInstrIffOnlyUnusedFieldsDiffer : Prop :=
  ∀ (w w' : Word) (i : Instr), decode .ignore w = .instr i →
    (decode .ignore w' = .instr i ↔ w &&& ~~~(unusedMask i) = w' &&& ~~~(unusedMask i))

/-- R89: words 0xA000 to 0xFFFF, and no others, have a reserved opcode; executing one stops with IllegalInstruction
and there is no next state (the spec's decision D7). -/
def Obligations.ReservedOpcodesStop : Prop :=
  (∀ (u : UnusedFields) (w : Word), decode u w = .reservedOpcode w ↔ 0xA000 ≤ w.toNat) ∧
  (∀ (s : State) (w : Word), s.run = .running → fetch s = .ok w → 0xA000 ≤ w.toNat →
    step s = .fault (.illegalInstruction s.pc w))

/-- R90, R98: words written out from the encoding tables, one or more of each family, read as the instructions they
stand for. -/
def Obligations.SampleWordsDecode : Prop :=
  decode .ignore 0x0145#16 = .instr (.add .r1 .r2 5#5) ∧
  decode .ignore 0x1D82#16 = .instr (.div .r5 .r4 2#5) ∧
  decode .ignore 0x27CF#16 = .instr (.and .r7 .r6 15#5) ∧
  decode .ignore 0x4CA2#16 = .instr (.st .r4 .r5 2#5) ∧
  decode .ignore 0x55FE#16 = .instr (.ldi .r5 0xFE#8) ∧
  decode .ignore 0x6C08#16 = .instr (.jz .r4 8#5) ∧
  decode .ignore 0x7D00#16 = .instr (.call .r5) ∧
  decode .ignore 0x8880#16 = .instr (.out 0#5 .r4) ∧
  decode .ignore 0x9000#16 = .instr .halt ∧
  decode .ignore 0x9FFF#16 = .instr .nop ∧
  decode .ignore 0x0000#16 = .instr (.add .r0 .r0 0#5)

/-- R86: where each immediate stands in the word, its value and its range, and the device numbers the source defines.
The extension of the Register-format immediate is the spec's decision D4; both values of `RIMM_EXT` are stated. -/
def Obligations.ImmediateValues : Prop :=
  (∀ w : Word, (imm5Field w).toNat = w.toNat % 32 ∧ (imm8Field w).toNat = w.toNat % 256) ∧
  (∀ dev : BitVec 5, dev.toNat ≤ 31 ∧ ((inputDevice dev).isSome = true ↔ dev.toNat ≤ 2) ∧
    ((outputDevice dev).isSome = true ↔ dev.toNat ≤ 2)) ∧
  (∀ imm5 : BitVec 5,
    (regImm .zero imm5).toNat = imm5.toNat ∧ imm5.toNat ≤ 31 ∧
    (regImm .sign imm5).toInt = imm5.toInt ∧ -16 ≤ imm5.toInt ∧ imm5.toInt ≤ 15 ∧
    (branchTarget imm5).toNat = imm5.toNat) ∧
  (∀ imm8 : BitVec 8,
    (ldiImm imm8).toInt = imm8.toInt ∧ -128 ≤ imm8.toInt ∧ imm8.toInt ≤ 127 ∧
    (ldaImm imm8).toNat = imm8.toNat ∧ (jmpTarget imm8).toNat = imm8.toNat ∧ imm8.toNat ≤ 255)

/-- R94, R98: every instruction can be written in assembly, and assembling it gives the instruction back. -/
def Obligations.AssembleOfDisassembleIsIdentity : Prop :=
  ∀ (ext : ImmExt) (i : Instr), assemble ext (disassemble ext i) = some i

/-- R95: the ranges an assembler must enforce; a value out of range is rejected, and a value in range is not. -/
def Obligations.AssemblerEnforcesRanges : Prop :=
  (∀ m ∈ [Mnemonic.add, .sub, .mul, .div, .and, .or, .xor], ∀ (d s : Nat) (v : Int),
    (assemble .zero ⟨m, [.reg d, .reg s, .imm v]⟩).isSome = true ↔ d ≤ 7 ∧ s ≤ 7 ∧ 0 ≤ v ∧ v ≤ 31) ∧
  (∀ (d b : Nat) (v : Int),
    ((assemble .zero ⟨.ld, [.reg d, .mem b v]⟩).isSome = true ↔ d ≤ 7 ∧ b ≤ 7 ∧ 0 ≤ v ∧ v ≤ 31) ∧
    ((assemble .zero ⟨.st, [.mem b v, .reg d]⟩).isSome = true ↔ d ≤ 7 ∧ b ≤ 7 ∧ 0 ≤ v ∧ v ≤ 31)) ∧
  (∀ (d : Nat) (v : Int),
    ((assemble .zero ⟨.ldi, [.reg d, .imm v]⟩).isSome = true ↔ d ≤ 7 ∧ -128 ≤ v ∧ v ≤ 127) ∧
    ((assemble .zero ⟨.lda, [.reg d, .imm v]⟩).isSome = true ↔ d ≤ 7 ∧ 0 ≤ v ∧ v ≤ 255) ∧
    ((assemble .zero ⟨.jmp, [.imm v]⟩).isSome = true ↔ 0 ≤ v ∧ v ≤ 255) ∧
    ((assemble .zero ⟨.jz, [.reg d, .imm v]⟩).isSome = true ↔ d ≤ 7 ∧ 0 ≤ v ∧ v ≤ 31) ∧
    ((assemble .zero ⟨.jnz, [.reg d, .imm v]⟩).isSome = true ↔ d ≤ 7 ∧ 0 ≤ v ∧ v ≤ 31) ∧
    ((assemble .zero ⟨.inp, [.reg d, .imm v]⟩).isSome = true ↔ d ≤ 7 ∧ 0 ≤ v ∧ v ≤ 31) ∧
    ((assemble .zero ⟨.out, [.imm v, .reg d]⟩).isSome = true ↔ d ≤ 7 ∧ 0 ≤ v ∧ v ≤ 31)) ∧
  assemble .zero ⟨.ld, [.reg 1, .mem 2 100]⟩ = none ∧ assemble .zero ⟨.st, [.mem 0 200, .reg 1]⟩ = none

/-! Arithmetic (R111 to R115). -/

/-- R111: ADD's encoding, result, four flags, next pc, and frame. -/
def Obligations.AddRule : Prop :=
  Selects 0x0000#16 (fun w => .add (regOfBits (rdField w)) (regOfBits (rsField w)) (imm5Field w)) ∧
  ∀ (rd rs : Reg) (imm5 : BitVec 5) (s : State), NpcDefined s →
    let a := readReg rs s
    let b := regImm s.config.rimmExt imm5
    let r := BitVec.ofNat 16 (a.toNat + b.toNat)
    ∃ t, exec (.add rd rs imm5) s = .next t ∧ t.pc = npcOf s ∧
      readReg rd t = (if rd = .r0 then 0x0000#16 else r) ∧
      t.flags.c = decide (65536 ≤ a.toNat + b.toNat) ∧
      t.flags.v = (a.getLsbD 15 == b.getLsbD 15 && r.getLsbD 15 != a.getLsbD 15) ∧
      (t.flags.v = true ↔ a.toInt + b.toInt < -32768 ∨ 32767 < a.toInt + b.toInt) ∧
      t.flags.z = decide (r = 0x0000#16) ∧ t.flags.n = r.getLsbD 15 ∧
      RegisterFrame rd s t

/-- R112: SUB's encoding, result, four flags under either polarity of C, next pc, and frame. -/
def Obligations.SubRule : Prop :=
  Selects 0x0800#16 (fun w => .sub (regOfBits (rdField w)) (regOfBits (rsField w)) (imm5Field w)) ∧
  ∀ (rd rs : Reg) (imm5 : BitVec 5) (s : State), NpcDefined s →
    let a := readReg rs s
    let b := regImm s.config.rimmExt imm5
    let r := BitVec.ofInt 16 ((a.toNat : Int) - (b.toNat : Int))
    ∃ t, exec (.sub rd rs imm5) s = .next t ∧ t.pc = npcOf s ∧
      readReg rd t = (if rd = .r0 then 0x0000#16 else r) ∧
      (s.config.subCarry = .borrow → t.flags.c = decide (a.toNat < b.toNat)) ∧
      (s.config.subCarry = .notBorrow → t.flags.c = decide (b.toNat ≤ a.toNat)) ∧
      t.flags.v = (a.getLsbD 15 != b.getLsbD 15 && r.getLsbD 15 != a.getLsbD 15) ∧
      (t.flags.v = true ↔ a.toInt - b.toInt < -32768 ∨ 32767 < a.toInt - b.toInt) ∧
      t.flags.z = decide (r = 0x0000#16) ∧ t.flags.n = r.getLsbD 15 ∧
      RegisterFrame rd s t

/-- R113: MUL's encoding, result, V and Z written, C and N unchanged, next pc, and frame. -/
def Obligations.MulRule : Prop :=
  Selects 0x1000#16 (fun w => .mul (regOfBits (rdField w)) (regOfBits (rsField w)) (imm5Field w)) ∧
  ∀ (rd rs : Reg) (imm5 : BitVec 5) (s : State), NpcDefined s →
    let p := (readReg rs s).toInt * (regImm s.config.rimmExt imm5).toInt
    ∃ t, exec (.mul rd rs imm5) s = .next t ∧ t.pc = npcOf s ∧
      readReg rd t = (if rd = .r0 then 0x0000#16 else BitVec.ofInt 16 p) ∧
      t.flags.v = decide (p < -32768 ∨ 32767 < p) ∧
      (t.flags.z = true ↔ (65536 : Int) ∣ p) ∧
      t.flags.c = s.flags.c ∧ t.flags.n = s.flags.n ∧
      RegisterFrame rd s t

/-- R114: DIV's encoding; with a non-zero divisor the quotient rounded toward zero, V and Z written, C and N unchanged,
next pc, and frame; with a zero divisor nothing but the run state changes; the divisor is zero exactly when the field
imm5 is, and with the zero-extended immediate V is always written 0. -/
def Obligations.DivRule : Prop :=
  Selects 0x1800#16 (fun w => .div (regOfBits (rdField w)) (regOfBits (rsField w)) (imm5Field w)) ∧
  ∀ (rd rs : Reg) (imm5 : BitVec 5) (s : State),
    let a := (readReg rs s).toInt
    let b := (regImm s.config.rimmExt imm5).toInt
    let q := (if (a < 0) ↔ (b < 0) then (1 : Int) else -1) * ((a.natAbs / b.natAbs : Nat) : Int)
    (b = 0 ↔ imm5 = 0#5) ∧
    (b = 0 → exec (.div rd rs imm5) s = .next { s with run := .exception .divideByZero s.pc }) ∧
    (b ≠ 0 → NpcDefined s →
      ∃ t, exec (.div rd rs imm5) s = .next t ∧ t.pc = npcOf s ∧
        readReg rd t = (if rd = .r0 then 0x0000#16 else BitVec.ofInt 16 q) ∧
        t.flags.v = decide (q < -32768 ∨ 32767 < q) ∧
        (s.config.rimmExt = .zero → t.flags.v = false) ∧
        (t.flags.z = true ↔ BitVec.ofInt 16 q = 0x0000#16) ∧
        t.flags.c = s.flags.c ∧ t.flags.n = s.flags.n ∧
        RegisterFrame rd s t)

/-- R115(e): the division law: remainder smaller than the divisor and of the dividend's sign, the sign of the quotient
for each combination of signs, and -32768 / -1 as the only overflow. -/
def Obligations.DivisionLaw : Prop :=
  ∀ a b : Word, b ≠ 0#16 →
    (∃ rem : Int, s16 a = divQuotient a b * s16 b + rem ∧ rem.natAbs < (s16 b).natAbs ∧
      (rem = 0 ∨ rem.sign = (s16 a).sign)) ∧
    (0 ≤ s16 a → 0 < s16 b → 0 ≤ divQuotient a b) ∧
    (s16 a ≤ 0 → 0 < s16 b → divQuotient a b ≤ 0) ∧
    (0 ≤ s16 a → s16 b < 0 → divQuotient a b ≤ 0) ∧
    (s16 a ≤ 0 → s16 b < 0 → 0 ≤ divQuotient a b) ∧
    (fitsSigned (divQuotient a b) = false ↔ s16 a = -32768 ∧ s16 b = -1) ∧
    (s16 a = -32768 → s16 b = -1 → divResult a b = 0x8000#16)

/-- R115(c), R115(d): the 16 bits of a sum, a difference and a product are the same for the signed and the unsigned
reading of the operands. -/
def Obligations.ResultsIndependentOfSignedness : Prop :=
  ∀ a b : Word,
    addResult a b = BitVec.ofInt 16 (a.toInt + b.toInt) ∧
    subResult a b = BitVec.ofInt 16 (a.toInt - b.toInt) ∧
    mulResult a b = BitVec.ofNat 16 (a.toNat * b.toNat)

/-! Logical (R130 to R133). -/

/-- R130, R131, R132: AND, OR and XOR: encoding, result, no flag written, next pc, and frame; with the zero-extended
immediate AND keeps only the low five bits and OR and XOR leave bits 15:5 as they were. -/
def Obligations.AndOrXorRule : Prop :=
  Selects 0x2000#16 (fun w => .and (regOfBits (rdField w)) (regOfBits (rsField w)) (imm5Field w)) ∧
  Selects 0x2800#16 (fun w => .or (regOfBits (rdField w)) (regOfBits (rsField w)) (imm5Field w)) ∧
  Selects 0x3000#16 (fun w => .xor (regOfBits (rdField w)) (regOfBits (rsField w)) (imm5Field w)) ∧
  ∀ (rd rs : Reg) (imm5 : BitVec 5) (s : State), NpcDefined s →
    let a := readReg rs s
    let b := regImm s.config.rimmExt imm5
    (∃ t, exec (.and rd rs imm5) s = .next t ∧ t.pc = npcOf s ∧ t.flags = s.flags ∧ RegisterFrame rd s t ∧
      readReg rd t = (if rd = .r0 then 0x0000#16 else a &&& b) ∧
      (s.config.rimmExt = .zero → (readReg rd t).toNat ≤ 31)) ∧
    (∃ t, exec (.or rd rs imm5) s = .next t ∧ t.pc = npcOf s ∧ t.flags = s.flags ∧ RegisterFrame rd s t ∧
      readReg rd t = (if rd = .r0 then 0x0000#16 else a ||| b) ∧
      (s.config.rimmExt = .zero → rd ≠ .r0 → (readReg rd t).toNat / 32 = a.toNat / 32)) ∧
    (∃ t, exec (.xor rd rs imm5) s = .next t ∧ t.pc = npcOf s ∧ t.flags = s.flags ∧ RegisterFrame rd s t ∧
      readReg rd t = (if rd = .r0 then 0x0000#16 else a ^^^ b) ∧
      (s.config.rimmExt = .zero → rd ≠ .r0 → (readReg rd t).toNat / 32 = a.toNat / 32))

/-- R133: NOT: encoding, whatever the unused imm5 field holds; every bit inverted; no flag; next pc and frame; NOT of
NOT restores the operand. -/
def Obligations.NotRule : Prop :=
  Selects 0x3800#16 (fun w => .not (regOfBits (rdField w)) (regOfBits (rsField w))) ∧
  ∀ (rd rs : Reg) (s : State), NpcDefined s →
    ∃ t, exec (.not rd rs) s = .next t ∧ t.pc = npcOf s ∧ t.flags = s.flags ∧ RegisterFrame rd s t ∧
      readReg rd t = (if rd = .r0 then 0x0000#16 else BitVec.ofNat 16 (65535 - (readReg rs s).toNat)) ∧
      ∀ (rd' : Reg) (t' : State), rd ≠ .r0 → rd' ≠ .r0 → exec (.not rd' rd) t = .next t' →
        readReg rd' t' = readReg rs s

/-! Memory (R54 to R65, R140 to R144). -/

/-- R54, R55: the two access primitives: which byte goes where in either byte order, every other byte unchanged, and
no access at an odd address where that is a fault. -/
def Obligations.WordAccessPrimitives : Prop :=
  ∀ (a : Addr) (v : Word) (s : State),
    (a.toNat % 2 = 0 →
      ∃ t, writeWord a v s = some t ∧ readWord a t = some v ∧
        (s.config.byteOrder = .little →
          (readByte a t).toNat = v.toNat % 256 ∧ (readByte (a + 1#17) t).toNat = v.toNat / 256) ∧
        (s.config.byteOrder = .big →
          (readByte a t).toNat = v.toNat / 256 ∧ (readByte (a + 1#17) t).toNat = v.toNat % 256) ∧
        ∀ x : Addr, x ≠ a → x ≠ a + 1#17 → readByte x t = readByte x s) ∧
    (a.toNat % 2 = 0 →
      ∃ w, readWord a s = some w ∧
        (s.config.byteOrder = .little →
          w.toNat = (readByte (a + 1#17) s).toNat * 256 + (readByte a s).toNat) ∧
        (s.config.byteOrder = .big →
          w.toNat = (readByte a s).toNat * 256 + (readByte (a + 1#17) s).toNat)) ∧
    (a.toNat % 2 = 1 → s.config.misaligned = .fault → readWord a s = none ∧ writeWord a v s = none)

/-- R141: LD: encoding; the effective address, which wraps; the word loaded; no flag; next pc and frame; where the
address is odd and that is a fault, the stop. -/
def Obligations.LdRule : Prop :=
  Selects 0x4000#16 (fun w => .ld (regOfBits (rdField w)) (regOfBits (rsField w)) (imm5Field w)) ∧
  ∀ (rd rs : Reg) (imm5 : BitVec 5) (s : State),
    let ea := dataAddress rs imm5 s
    ea.toNat = ((readReg rs s).toNat + (regImm s.config.rimmExt imm5).toNat) % 65536 ∧
    (physical ea).toNat = ea.toNat ∧
    (Accessible (physical ea) s → NpcDefined s →
      ∃ t, exec (.ld rd rs imm5) s = .next t ∧ t.pc = npcOf s ∧ t.flags = s.flags ∧ RegisterFrame rd s t ∧
        readReg rd t = (if rd = .r0 then 0x0000#16
          else wordOfBytes s.config.byteOrder (readByte (physical ea) s) (readByte (physical ea + 1#17) s))) ∧
    (¬ Accessible (physical ea) s → exec (.ld rd rs imm5) s = .fault (.misalignedData s.pc ea))

/-- R142: ST: encoding; base in rd and data in rs; the two bytes stored at the effective address; every other byte,
every register and every flag unchanged; where the address is odd and that is a fault, the stop. -/
def Obligations.StRule : Prop :=
  Selects 0x4800#16 (fun w => .st (regOfBits (rdField w)) (regOfBits (rsField w)) (imm5Field w)) ∧
  ∀ (rd rs : Reg) (imm5 : BitVec 5) (s : State),
    let ea := dataAddress rd imm5 s
    ea.toNat = ((readReg rd s).toNat + (regImm s.config.rimmExt imm5).toNat) % 65536 ∧
    (physical ea).toNat = ea.toNat ∧
    (Accessible (physical ea) s → NpcDefined s →
      ∃ t, exec (.st rd rs imm5) s = .next t ∧ t.pc = npcOf s ∧ t.flags = s.flags ∧ SameRegsBut [] s t ∧
        SameDevices s t ∧ t.run = s.run ∧ t.config = s.config ∧
        readByte (physical ea) t = byteAtLow s.config.byteOrder (readReg rs s) ∧
        readByte (physical ea + 1#17) t = byteAtHigh s.config.byteOrder (readReg rs s) ∧
        ∀ x : Addr, x ≠ physical ea → x ≠ physical ea + 1#17 → readByte x t = readByte x s) ∧
    (¬ Accessible (physical ea) s → exec (.st rd rs imm5) s = .fault (.misalignedData s.pc ea))

/-- R143, R144: LDI sign-extends and LDA zero-extends the 8-bit field; encodings, no flag, next pc, frame. -/
def Obligations.LdiLdaRule : Prop :=
  Selects 0x5000#16 (fun w => .ldi (regOfBits (rdField w)) (imm8Field w)) ∧
  Selects 0x5800#16 (fun w => .lda (regOfBits (rdField w)) (imm8Field w)) ∧
  ∀ (rd : Reg) (imm8 : BitVec 8) (s : State), NpcDefined s →
    (∃ t, exec (.ldi rd imm8) s = .next t ∧ t.pc = npcOf s ∧ t.flags = s.flags ∧ RegisterFrame rd s t ∧
      (readReg rd t).toInt = if rd = .r0 then 0 else imm8.toInt) ∧
    (∃ t, exec (.lda rd imm8) s = .next t ∧ t.pc = npcOf s ∧ t.flags = s.flags ∧ RegisterFrame rd s t ∧
      (readReg rd t).toNat = if rd = .r0 then 0 else imm8.toNat)

/-- R61: an LD that follows an ST, with any base and offset that give the address stored to, returns the value stored. -/
def Obligations.LoadReturnsMostRecentStore : Prop :=
  ∀ (b d b' x : Reg) (imm5 imm5' : BitVec 5) (s t t' : State),
    exec (.st b d imm5) s = .next t → dataAddress b' imm5' t = dataAddress b imm5 s →
    exec (.ld x b' imm5') t = .next t' →
    readReg x t' = if x = .r0 then 0x0000#16 else readReg d s

/-- R65: the fetch of the instruction that follows an ST sees the word stored, if it is stored there. At an odd pc (under
`MISALIGNED = split`) that rests on the model's choice that a fetch is split as well: assumption 9. -/
def Obligations.StoreSeenByNextFetch : Prop :=
  ∀ (b d : Reg) (imm5 : BitVec 5) (s t : State),
    exec (.st b d imm5) s = .next t → dataAddress b imm5 s = t.pc → fetch t = .ok (readReg d s)

/-- R14, R38: of all instructions only ST changes a byte of memory. -/
def Obligations.OnlyStoreChangesMemory : Prop :=
  ∀ (i : Instr) (s t : State), exec i s = .next t → (∀ rd rs imm5, i ≠ .st rd rs imm5) → SameMemory s t

/-! Control flow (R160 to R169). -/

/-- R161: JMP: encoding whatever the unused rd field holds, the absolute target, nothing else changed. -/
def Obligations.JmpRule : Prop :=
  Selects 0x6000#16 (fun w => .jmp (imm8Field w)) ∧
  ∀ (imm8 : BitVec 8) (s : State), ∃ t, exec (.jmp imm8) s = .next t ∧ t.pc.toNat = imm8.toNat ∧
    t.flags = s.flags ∧ RegisterFrame .r0 s t

/-- R162, R163: JZ and JNZ: encodings, the test on the register, the absolute target or the next address, nothing else
changed. -/
def Obligations.JzJnzRule : Prop :=
  Selects 0x6800#16 (fun w => .jz (regOfBits (rdField w)) (imm5Field w)) ∧
  Selects 0x7000#16 (fun w => .jnz (regOfBits (rdField w)) (imm5Field w)) ∧
  ∀ (rd : Reg) (imm5 : BitVec 5) (s : State),
    (readReg rd s = 0x0000#16 →
      ∃ t, exec (.jz rd imm5) s = .next t ∧ t.pc.toNat = imm5.toNat ∧ t.flags = s.flags ∧ RegisterFrame .r0 s t) ∧
    (readReg rd s ≠ 0x0000#16 → NpcDefined s →
      ∃ t, exec (.jz rd imm5) s = .next t ∧ t.pc = npcOf s ∧ t.flags = s.flags ∧ RegisterFrame .r0 s t) ∧
    (readReg rd s ≠ 0x0000#16 →
      ∃ t, exec (.jnz rd imm5) s = .next t ∧ t.pc.toNat = imm5.toNat ∧ t.flags = s.flags ∧ RegisterFrame .r0 s t) ∧
    (readReg rd s = 0x0000#16 → NpcDefined s →
      ∃ t, exec (.jnz rd imm5) s = .next t ∧ t.pc = npcOf s ∧ t.flags = s.flags ∧ RegisterFrame .r0 s t)

/-- R166: CALL: encoding; the target is the register's old value, also for R3; R3 gets the address of the following
instruction whatever rd is; nothing else changed. -/
def Obligations.CallRule : Prop :=
  Selects 0x7800#16 (fun w => .call (regOfBits (rdField w))) ∧
  ∀ (rd : Reg) (s : State), NpcDefined s →
    ∃ t, exec (.call rd) s = .next t ∧ t.pc = readReg rd s ∧ readReg .r3 t = npcOf s ∧
      t.flags = s.flags ∧ RegisterFrame .r3 s t

/-- R167: `CALL R3` in the subroutine, with R3 still what the call left there, resumes after the call. -/
def Obligations.CallR3ReturnsAfterTheCall : Prop :=
  ∀ (rd : Reg) (s t u u' : State), exec (.call rd) s = .next t → readReg .r3 u = readReg .r3 t →
    exec (.call .r3) u = .next u' → u'.pc = npcOf s ∧ readReg .r3 u' = npcOf u

/-! Devices (R181 to R188). -/

/-- R187: IN with a known device number that the environment does not hold: encoding; the value the environment
supplies goes to rd and into the trace (with rd = 0 the read still takes place); no flag; next pc and frame. The
environment answers one attempt and gives one value of this device, nothing else. Its form is the model's choice:
assumptions 4 and 5. -/
def Obligations.InRule : Prop :=
  Selects 0x8000#16 (fun w => .inp (regOfBits (rdField w)) (imm5Field w)) ∧
  (∀ (rd : Reg) (dev : BitVec 5) (s : State), 2 < dev.toNat →
    exec (.inp rd dev) s = .fault (.unknownDevice s.pc dev)) ∧
  ∀ (rd : Reg) (s : State), ∀ p ∈ [(0#5, InputDevice.keyboard), (1#5, .timer), (2#5, .random)],
    accessHeld s.env = false → NpcDefined s →
    ∃ (t : State) (v : Word), exec (.inp rd p.1) s = .next t ∧
      (∀ x xs, supplied p.2 s.env = x :: xs → v = x) ∧
      (supplied p.2 s.env = [] → v = Config.freeInput s.env.draws) ∧
      readReg rd t = (if rd = .r0 then 0x0000#16 else v) ∧
      t.trace = s.trace ++ [.input p.2 v] ∧
      supplied p.2 t.env = (supplied p.2 s.env).tail ∧
      t.env = consumed p.2 (answered s.env) ∧ (∀ d, d ≠ p.2 → supplied d t.env = supplied d s.env) ∧
      t.env.holds = s.env.holds.tail ∧ t.env.holdsRest = s.env.holdsRest ∧
      t.pc = npcOf s ∧ t.flags = s.flags ∧ SameRegsBut [rd] s t ∧ SameMemory s t ∧ t.run = s.run ∧
      t.config = s.config

/-- R188: OUT with a known device number that the environment does not hold: encoding; the register's 16 bits go into
the trace; no register and no flag written; next pc and frame. The environment answers one attempt and is else as
before; its form is the model's choice: assumption 5. -/
def Obligations.OutRule : Prop :=
  Selects 0x8800#16 (fun w => .out (imm5Field w) (regOfBits (rsField w))) ∧
  (∀ (rs : Reg) (dev : BitVec 5) (s : State), 2 < dev.toNat →
    exec (.out dev rs) s = .fault (.unknownDevice s.pc dev)) ∧
  ∀ (rs : Reg) (s : State), ∀ p ∈ [(0#5, OutputDevice.console), (1#5, .graphics), (2#5, .disk)],
    accessHeld s.env = false → NpcDefined s →
    ∃ t : State, exec (.out p.1 rs) s = .next t ∧
      t.trace = s.trace ++ [.output p.2 (readReg rs s)] ∧ t.env = { s.env with holds := s.env.holds.tail } ∧
      t.pc = npcOf s ∧ t.flags = s.flags ∧ SameRegsBut [] s t ∧ SameMemory s t ∧ t.run = s.run ∧
      t.config = s.config

/-- R182: an access the environment holds changes nothing of the machine, and the same instruction is offered again, any
number of times, until the environment makes the device available. The form of the environment (its list of answers)
is the model's choice: assumption 5. -/
def Obligations.HeldAccessIsOfferedAgain : Prop :=
  (∀ (i : Instr) (s : State), usesKnownDevice i = true → accessHeld s.env = true →
    exec i s = .next { s with env := answered s.env }) ∧
  (∀ (n : Nat) (i : Instr) (w : Word) (s : State) (rest : List Bool), usesKnownDevice i = true → s.run = .running →
    fetch s = .ok w → decode s.config.unusedFields w = .instr i →
    s.env.holds = List.replicate n true ++ false :: rest →
    Sys2Proof.core.run n s = .next { s with env := { s.env with holds := false :: rest } })

/-- R181, R62: an instruction leaves the trace alone or appends one event at its end: IN the value it read, OUT the
register it wrote. -/
def Obligations.TraceGrowsByOneEventAtTheEnd : Prop :=
  ∀ (i : Instr) (s t : State), exec i s = .next t →
    t.trace = s.trace ∨
    (∃ rd dev d v, i = .inp rd dev ∧ inputDevice dev = some d ∧ t.trace = s.trace ++ [.input d v] ∧
      readReg rd t = if rd = .r0 then 0x0000#16 else v) ∨
    (∃ rs dev d, i = .out dev rs ∧ outputDevice dev = some d ∧ t.trace = s.trace ++ [.output d (readReg rs s)])

/-! HALT, NOP and the end of a run (R185, R186, R200 to R206, R238). -/

/-- R185: HALT: encoding whatever bits 10:0 hold; the run state becomes Halted, pc the address after the HALT, nothing
else changes; and the halted machine stays as it is. That a halted machine steps to itself is the model's choice, its
form of R185's "terminal": assumption 7. -/
def Obligations.HaltRule : Prop :=
  Selects 0x9000#16 (fun _ => .halt) ∧
  ∀ s : State, NpcDefined s →
    exec .halt s = .next { s with run := .halted, pc := npcOf s } ∧
    ∀ t, exec .halt s = .next t → step t = .next t

/-- R186: NOP: encoding whatever bits 10:0 hold; only pc changes. -/
def Obligations.NopRule : Prop :=
  Selects 0x9800#16 (fun _ => .nop) ∧
  ∀ s : State, NpcDefined s → exec .nop s = .next { s with pc := npcOf s }

/-- R185, R202, R238: a machine that has stopped never changes again, however many steps are taken. That it steps to
itself is the model's choice: assumption 7. -/
def Obligations.StoppedMachineNeverChanges : Prop :=
  ∀ (n : Nat) (s : State), s.run ≠ .running → Sys2Proof.core.run n s = .next s

/-- R200: exactly one instruction raises the one exception, DIV, exactly when its divisor is zero, which is when its field
imm5 is; and exactly HALT halts (R185). -/
def Obligations.OnlyDivByZeroRaisesAndOnlyHaltHalts : Prop :=
  ∀ (i : Instr) (s t : State), s.run = .running → exec i s = .next t →
    ((∃ c a, t.run = .exception c a) ↔
      ∃ rd rs imm5, i = .div rd rs imm5 ∧ regImm s.config.rimmExt imm5 = 0x0000#16) ∧
    (∀ imm5, regImm s.config.rimmExt imm5 = 0x0000#16 ↔ imm5 = 0#5) ∧
    (∀ c a, t.run = .exception c a → c = .divideByZero ∧ a = s.pc) ∧
    (t.run = .halted ↔ i = .halt)

/-- R202, R204: a step that meets a DIV with divisor zero writes no register, flag, memory byte, trace or pc; the run
state records the cause and the address; and nothing happens after it. That the exception stops the processor is the
spec's decision D11; that a stopped machine steps to itself is the model's choice: assumption 7. -/
def Obligations.DivideByZeroEntry : Prop :=
  ∀ (rd rs : Reg) (w : Word) (s : State), s.run = .running → fetch s = .ok w →
    decode s.config.unusedFields w = .instr (.div rd rs 0#5) →
    step s = .next { s with run := .exception .divideByZero s.pc } ∧
    ∀ n, Sys2Proof.core.run (n + 1) s = .next { s with run := .exception .divideByZero s.pc }

/-! The step (R26 to R28, R57, R59, R205). -/

/-- R37, R205: when the word at pc decodes to an instruction, the step of a running machine is that instruction's
meaning. At an odd pc a word is read under `MISALIGNED = split` only; that the fetch is split as well is the model's
choice: assumption 9. -/
def Obligations.StepRunsDecodedInstruction : Prop :=
  ∀ (s : State) (w : Word) (i : Instr), s.run = .running → readWord (physical s.pc) s = some w →
    decode s.config.unusedFields w = .instr i → step s = exec i s

/-- R59: the fetch: MisalignedFetch at an odd pc where that is a fault, else the two bytes at pc and pc + 1 in the byte
order. -/
def Obligations.FetchRule : Prop :=
  ∀ s : State,
    (s.pc.toNat % 2 = 1 → s.config.misaligned = .fault → fetch s = .error (.misalignedFetch s.pc)) ∧
    (s.pc.toNat % 2 = 0 → ∃ w, fetch s = .ok w ∧
      (s.config.byteOrder = .little → w.toNat =
        (readByte (BitVec.ofNat 17 (s.pc.toNat + 1)) s).toNat * 256 + (readByte (BitVec.ofNat 17 s.pc.toNat) s).toNat) ∧
      (s.config.byteOrder = .big → w.toNat =
        (readByte (BitVec.ofNat 17 s.pc.toNat) s).toNat * 256 + (readByte (BitVec.ofNat 17 (s.pc.toNat + 1)) s).toNat))

/-- R205: the order of the checks of a step, first match wins, under `MISALIGNED = fault`: the odd pc, the reserved
opcode, then the one condition of the instruction, which for IN and OUT comes before any wait (the spec's decision
D31). -/
def Obligations.StepChecksInOrder : Prop :=
  ∀ s : State, s.run = .running → s.config.misaligned = .fault →
    (s.pc.toNat % 2 = 1 → step s = .fault (.misalignedFetch s.pc)) ∧
    ∀ w, fetch s = .ok w →
      (0x14 ≤ (opField w).toNat → step s = .fault (.illegalInstruction s.pc w)) ∧
      ∀ i, decode s.config.unusedFields w = .instr i →
        (∀ rd rs, i = .div rd rs 0#5 → step s = .next { s with run := .exception .divideByZero s.pc }) ∧
        (∀ rd rs imm5, i = .ld rd rs imm5 → (dataAddress rs imm5 s).toNat % 2 = 1 →
          step s = .fault (.misalignedData s.pc (dataAddress rs imm5 s))) ∧
        (∀ rd rs imm5, i = .st rd rs imm5 → (dataAddress rd imm5 s).toNat % 2 = 1 →
          step s = .fault (.misalignedData s.pc (dataAddress rd imm5 s))) ∧
        (∀ rd dev, i = .inp rd dev → 2 < dev.toNat → step s = .fault (.unknownDevice s.pc dev)) ∧
        (∀ dev rs, i = .out dev rs → 2 < dev.toNat → step s = .fault (.unknownDevice s.pc dev))

/-- R26, R28: an instruction other than JMP, JZ, JNZ and CALL leaves pc at `npc`, or, where it does not complete (a held
access, the exception), where it was. -/
def Obligations.OnlyTransfersWriteAnotherPc : Prop :=
  ∀ (i : Instr) (s t : State), exec i s = .next t → transfersControl i = false →
    t.pc = npcOf s ∨
    (t.pc = s.pc ∧ ((usesKnownDevice i = true ∧ accessHeld s.env = true) ∨ ∃ rd rs, i = .div rd rs 0#5))

/-- R5, R27 with `PC_WRAP = fault` at the top of the 16-bit space: every instruction stops with the fault pcWrap, but JMP,
a taken JZ or JNZ, an IN or OUT that is held or names no device, a DIV with immediate 0, and an LD or ST whose access
is not performed. That these and no others use `npc`, CALL and HALT among them, and that the check comes last, is the
model's choice: assumption 8. -/
def Obligations.NoNextAddressStops : Prop :=
  ∀ (i : Instr) (s : State), ¬ NpcDefined s →
    (∀ imm8, i ≠ .jmp imm8) →
    (∀ rd imm5, i = .jz rd imm5 → readReg rd s ≠ 0x0000#16) →
    (∀ rd imm5, i = .jnz rd imm5 → readReg rd s = 0x0000#16) →
    (∀ rd dev, i = .inp rd dev → dev.toNat ≤ 2 ∧ accessHeld s.env = false) →
    (∀ dev rs, i = .out dev rs → dev.toNat ≤ 2 ∧ accessHeld s.env = false) →
    (∀ rd rs, i ≠ .div rd rs 0#5) →
    (∀ rd rs imm5, i = .ld rd rs imm5 → Accessible (physical (dataAddress rs imm5 s)) s) →
    (∀ rd rs imm5, i = .st rd rs imm5 → Accessible (physical (dataAddress rd imm5 s)) s) →
    exec i s = .fault (.pcWrap s.pc)

/-- The host's placing of a word (State.withFetchWord) puts it where the next fetch reads it (R59), in either byte
order. That withFetchWord stands for the host's load is the model's choice (assumption 11), and so is that a fetch at an
odd pc is split under `MISALIGNED = split` (assumption 9). -/
def Obligations.PlacedWordIsFetched : Prop :=
  ∀ (s : State) (w : Nat), Accessible (physical s.pc) s →
    fetch (s.withFetchWord 16 w) = .ok (BitVec.ofNat 16 w)

/-! Registers and flags (R8, R21, R23, R31). -/

/-- R8, R21: a read returns the value last written; R0 always reads zero and a write of it changes nothing at all. -/
def Obligations.RegisterReadAfterWrite : Prop :=
  ∀ (q r : Reg) (v : Word) (s : State),
    readReg q (writeReg r v s) = (if q = r ∧ r ≠ .r0 then v else readReg q s) ∧
    readReg .r0 s = 0x0000#16 ∧ writeReg .r0 v s = s

/-- R23 (Writes): an instruction writes no register but those of its row of the table. -/
def Obligations.WritesOnlyTheTableRegisters : Prop :=
  ∀ (i : Instr) (s t : State), exec i s = .next t → SameRegsBut (registersWritten i) s t

/-- R23 (Reads): an instruction's outcome does not depend on a register it does not read: two states that differ only
there have outcomes that differ at most there. -/
def Obligations.ReadsOnlyTheTableRegisters : Prop :=
  ∀ (i : Instr) (r : Reg) (s s' : State), r ∉ registersRead i → AgreeButReg r s s' →
    OutcomesRelated (AgreeButReg r) (exec i s) (exec i s')

/-- R31 (the spec's decision D9): only ADD, SUB, MUL and DIV write a flag; ADD and SUB write all four, MUL and DIV V and
Z, whatever was there before; MUL and DIV leave C and N; DIV writes none when it raises; the flags written do not depend
on which register is the destination, R0 included. -/
def Obligations.FlagsWrittenOnlyByArithmetic : Prop :=
  (∀ (i : Instr) (s t : State), exec i s = .next t → writesFlags i = false → t.flags = s.flags) ∧
  (∀ (rd rs : Reg) (imm5 : BitVec 5) (s t : State),
    exec (.mul rd rs imm5) s = .next t ∨ exec (.div rd rs imm5) s = .next t →
    t.flags.c = s.flags.c ∧ t.flags.n = s.flags.n) ∧
  (∀ (rd rs : Reg) (s t : State), exec (.div rd rs 0#5) s = .next t → t.flags = s.flags) ∧
  (∀ (rd rs : Reg) (imm5 : BitVec 5) (f : Flags) (s t t' : State),
    ∀ i ∈ [Instr.add rd rs imm5, .sub rd rs imm5], exec i s = .next t → exec i { s with flags := f } = .next t' →
      t'.flags = t.flags) ∧
  (∀ (rd rs : Reg) (imm5 : BitVec 5) (f : Flags) (s t t' : State), imm5 ≠ 0#5 →
    ∀ i ∈ [Instr.mul rd rs imm5, .div rd rs imm5], exec i s = .next t → exec i { s with flags := f } = .next t' →
      t'.flags.v = t.flags.v ∧ t'.flags.z = t.flags.z) ∧
  (∀ (f : Reg → Instr) (rs : Reg) (imm5 : BitVec 5), f ∈ [fun rd => Instr.add rd rs imm5, fun rd => .sub rd rs imm5,
      fun rd => .mul rd rs imm5, fun rd => .div rd rs imm5] →
    ∀ (rd : Reg) (s t t0 : State), exec (f rd) s = .next t → exec (f .r0) s = .next t0 → t.flags = t0.flags)

/-- R30: no program can observe the flags: two states that differ only in the flags step to states that differ only in
the flags, or stop for the same reason. -/
def Obligations.FlagsAreNeverObserved : Prop :=
  ∀ s s' : State, AgreeButFlags s s' → OutcomesRelated AgreeButFlags (step s) (step s')

/-! Reset and the host (R40, R230, R233). -/

/-- R40: what the spec fixes of the state after reset. The registers, the flags and unloaded memory it leaves
unspecified are not part of this statement. -/
def Obligations.ResetValues : Prop :=
  readReg .r0 State.reset = 0x0000#16 ∧ State.reset.pc = 0x0000#16 ∧ State.reset.run = .running ∧
  State.reset.trace = []

/-- R230, R233: after the host has placed an image and started the core, the core is running at 0x0000, every byte of the
image is where it was placed, every other byte and every register is as before, and the first fetch reads the bytes at
0x0000 and 0x0001. -/
def Obligations.BootPlacesTheImageAndStartsAtZero : Prop :=
  ∀ (base : Addr) (image : List Byte) (s : State), image.length ≤ 131072 →
    (boot base image s).run = .running ∧ (boot base image s).pc = 0x0000#16 ∧
    SameRegsBut [] s (boot base image s) ∧ (boot base image s).flags = s.flags ∧
    SameDevices s (boot base image s) ∧ (boot base image s).config = s.config ∧
    (∀ (k : Nat) (h : k < image.length), readByte (base + BitVec.ofNat 17 k) (boot base image s) = image[k]) ∧
    (∀ x : Addr, (∀ k < image.length, x ≠ base + BitVec.ofNat 17 k) →
      readByte x (boot base image s) = readByte x s) ∧
    fetch (boot base image s) = .ok (wordOfBytes s.config.byteOrder (readByte 0#17 (boot base image s))
      (readByte 1#17 (boot base image s)))

/-! The whole machine. -/

/-- The invariant holds after reset. The canonical form of memory is the model's choice: assumption 3. -/
def Obligations.ResetMeetsTheInvariant : Prop := State.reset.Inv

/-- R50, R185, R202, R203: every step keeps the invariant: memory stays canonical, a machine in Exception still shows the
DIV with immediate 0 at its pc, a halted one the HALT 2 before it. The canonical form of memory and the step of a stopped
machine are the model's choices: assumptions 3 and 7. -/
def Obligations.StepKeepsTheInvariant : Prop :=
  ∀ s t : State, s.Inv → step s = .next t → t.Inv

/-- R56 and R5: the OPEN parameters are those of the machine; no step switches one. -/
def Obligations.StepKeepsTheParameters : Prop :=
  ∀ s t : State, step s = .next t → t.config = s.config

/-- R52: under `MISALIGNED = fault` memory above 0x0FFFF is out of every program's reach: no step changes a byte there,
and what stands there has no influence on any step. -/
def Obligations.UpperMemoryIsOutOfReach : Prop :=
  ∀ s s' : State, s.config.misaligned = .fault → AgreeBelow64K s s' →
    OutcomesRelated AgreeBelow64K (step s) (step s') ∧
    ∀ t, step s = .next t → ∀ a : Addr, 65536 ≤ a.toNat → readByte a t = readByte a s

/-- R56: a program cannot observe the byte order: under `MISALIGNED = fault`, two machines of opposite byte order whose
memories hold the same words go through the same steps, with the same registers, flags, pc, trace and stops. -/
def Obligations.ByteOrderIsNotObservable : Prop :=
  ∀ s s' : State, ByteOrderMirror s s' → OutcomesRelated ByteOrderMirror (step s) (step s')

/-! Stops and fetches under the parameter values that are not the default. -/

/-- R88 with `UNUSED_FIELDS = fault`: a step that fetches a word with a non-zero unused field, which is a word that is not
the canonical one of the instruction its other fields give, stops with IllegalInstruction and there is no next state; the
canonical word runs. That the check is part of decoding, before anything the instruction does, is the model's choice:
assumption 13. -/
def Obligations.UnusedFieldSetStops : Prop :=
  ∀ (s : State) (w : Word) (i : Instr), s.run = .running → s.config.unusedFields = .fault → fetch s = .ok w →
    decode .ignore w = .instr i →
    (w ≠ encode i → step s = .fault (.illegalInstruction s.pc w)) ∧ (w = encode i → step s = exec i s)

/-- R57 with `MISALIGNED = split`: a fetch at an odd pc gives the word of the bytes at pc and pc + 1 in the byte order; at
0xFFFF the second is the one at 0x10000. That a fetch is split as well as LD and ST is the model's choice: assumption 9. -/
def Obligations.SplitFetchRule : Prop :=
  ∀ s : State, s.config.misaligned = .split → s.pc.toNat % 2 = 1 → ∃ w, fetch s = .ok w ∧
    (s.config.byteOrder = .little → w.toNat =
      (readByte (BitVec.ofNat 17 (s.pc.toNat + 1)) s).toNat * 256 + (readByte (BitVec.ofNat 17 s.pc.toNat) s).toNat) ∧
    (s.config.byteOrder = .big → w.toNat =
      (readByte (BitVec.ofNat 17 s.pc.toNat) s).toNat * 256 + (readByte (BitVec.ofNat 17 (s.pc.toNat + 1)) s).toNat)
end

