-- ==== Sys2Proof/Laws/Encoding.lean ====
section
/-! SUPPORT. The fields of an encoded word (R81 to R85, R98), one lemma per field and format. -/

namespace Sys2Proof

@[simp] theorem regOfBits_regBits (r : Reg) : regOfBits (regBits r) = r := by cases r <;> rfl

@[simp] theorem regBits_regOfBits (b : BitVec 3) : regBits (regOfBits b) = b := by
  revert b; decide

section Fields

variable (op : BitVec 5) (rd rs : BitVec 3) (imm5 : BitVec 5) (imm8 : BitVec 8)

@[simp] theorem opField_encodeR : opField (encodeR op rd rs imm5) = op := by
  apply BitVec.eq_of_getLsbD_eq
  intro i hi
  interval_cases i <;> simp only [opField, encodeR, BitVec.getLsbD_extractLsb', BitVec.getLsbD_append] <;> simp

@[simp] theorem rdField_encodeR : rdField (encodeR op rd rs imm5) = rd := by
  apply BitVec.eq_of_getLsbD_eq
  intro i hi
  interval_cases i <;> simp only [rdField, encodeR, BitVec.getLsbD_extractLsb', BitVec.getLsbD_append] <;> simp

@[simp] theorem rsField_encodeR : rsField (encodeR op rd rs imm5) = rs := by
  apply BitVec.eq_of_getLsbD_eq
  intro i hi
  interval_cases i <;> simp only [rsField, encodeR, BitVec.getLsbD_extractLsb', BitVec.getLsbD_append] <;> simp

@[simp] theorem imm5Field_encodeR : imm5Field (encodeR op rd rs imm5) = imm5 := by
  apply BitVec.eq_of_getLsbD_eq
  intro i hi
  interval_cases i <;> simp only [imm5Field, encodeR, BitVec.getLsbD_extractLsb', BitVec.getLsbD_append] <;> simp

@[simp] theorem opField_encodeI : opField (encodeI op rd imm8) = op := by
  apply BitVec.eq_of_getLsbD_eq
  intro i hi
  interval_cases i <;> simp only [opField, encodeI, BitVec.getLsbD_extractLsb', BitVec.getLsbD_append] <;> simp

@[simp] theorem rdField_encodeI : rdField (encodeI op rd imm8) = rd := by
  apply BitVec.eq_of_getLsbD_eq
  intro i hi
  interval_cases i <;> simp only [rdField, encodeI, BitVec.getLsbD_extractLsb', BitVec.getLsbD_append] <;> simp

@[simp] theorem imm8Field_encodeI : imm8Field (encodeI op rd imm8) = imm8 := by
  apply BitVec.eq_of_getLsbD_eq
  intro i hi
  interval_cases i <;> simp only [imm8Field, encodeI, BitVec.getLsbD_extractLsb', BitVec.getLsbD_append] <;> simp

@[simp] theorem opField_encodeN : opField (encodeN op) = op := by
  apply BitVec.eq_of_getLsbD_eq
  intro i hi
  interval_cases i <;> simp only [opField, encodeN, BitVec.getLsbD_extractLsb', BitVec.getLsbD_append] <;> simp

end Fields

/-- The opcode is what the mask 0xF800 keeps (R87). -/
theorem opField_of_masked {w m : Word} (h : w &&& 0xF800#16 = m) : opField w = opField m := by
  subst h
  apply BitVec.eq_of_getLsbD_eq
  intro i hi
  interval_cases i <;> simp only [opField, BitVec.getLsbD_extractLsb', BitVec.getLsbD_and] <;> simp

/-- Every word is its fields in the Register format put together again. -/
theorem encodeR_fields (w : Word) : encodeR (opField w) (rdField w) (rsField w) (imm5Field w) = w := by
  have h : ∀ i < 16, (opField w ++ rdField w ++ rsField w ++ imm5Field w).getLsbD i = w.getLsbD i := by
    intro i hi
    simp only [BitVec.getLsbD_append, opField, rdField, rsField, imm5Field, BitVec.getLsbD_extractLsb']
    interval_cases i <;> simp
  exact BitVec.eq_of_getLsbD_eq h

/-- Every word is its fields in the Immediate format put together again. -/
theorem encodeI_fields (w : Word) : encodeI (opField w) (rdField w) (imm8Field w) = w := by
  have h : ∀ i < 16, (opField w ++ rdField w ++ imm8Field w).getLsbD i = w.getLsbD i := by
    intro i hi
    simp only [BitVec.getLsbD_append, opField, rdField, imm8Field, BitVec.getLsbD_extractLsb']
    interval_cases i <;> simp
  exact BitVec.eq_of_getLsbD_eq h

end Sys2Proof
end

