-- ==== Sys2Proof/Laws/State.lean ====
section
/-! SUPPORT. One lemma per field per update of the state, true by rfl, so that no proof unfolds a record update. -/

namespace Sys2Proof.Machine

variable (s : State)

@[simp] theorem setPc_regs (t : Word) : (setPc t s).regs = s.regs := rfl
@[simp] theorem setPc_pc (t : Word) : (setPc t s).pc = t := rfl
@[simp] theorem setPc_flags (t : Word) : (setPc t s).flags = s.flags := rfl
@[simp] theorem setPc_run (t : Word) : (setPc t s).run = s.run := rfl
@[simp] theorem setPc_mem (t : Word) : (setPc t s).mem = s.mem := rfl
@[simp] theorem setPc_trace (t : Word) : (setPc t s).trace = s.trace := rfl
@[simp] theorem setPc_env (t : Word) : (setPc t s).env = s.env := rfl
@[simp] theorem setPc_config (t : Word) : (setPc t s).config = s.config := rfl

@[simp] theorem setFlags_regs (f : Flags) : (setFlags f s).regs = s.regs := rfl
@[simp] theorem setFlags_pc (f : Flags) : (setFlags f s).pc = s.pc := rfl
@[simp] theorem setFlags_flags (f : Flags) : (setFlags f s).flags = f := rfl
@[simp] theorem setFlags_run (f : Flags) : (setFlags f s).run = s.run := rfl
@[simp] theorem setFlags_mem (f : Flags) : (setFlags f s).mem = s.mem := rfl
@[simp] theorem setFlags_trace (f : Flags) : (setFlags f s).trace = s.trace := rfl
@[simp] theorem setFlags_env (f : Flags) : (setFlags f s).env = s.env := rfl
@[simp] theorem setFlags_config (f : Flags) : (setFlags f s).config = s.config := rfl

@[simp] theorem setRun_regs (r : RunState) : (setRun r s).regs = s.regs := rfl
@[simp] theorem setRun_pc (r : RunState) : (setRun r s).pc = s.pc := rfl
@[simp] theorem setRun_flags (r : RunState) : (setRun r s).flags = s.flags := rfl
@[simp] theorem setRun_run (r : RunState) : (setRun r s).run = r := rfl
@[simp] theorem setRun_mem (r : RunState) : (setRun r s).mem = s.mem := rfl
@[simp] theorem setRun_trace (r : RunState) : (setRun r s).trace = s.trace := rfl
@[simp] theorem setRun_env (r : RunState) : (setRun r s).env = s.env := rfl
@[simp] theorem setRun_config (r : RunState) : (setRun r s).config = s.config := rfl

@[simp] theorem setMem_regs (m : Memory) : (setMem m s).regs = s.regs := rfl
@[simp] theorem setMem_pc (m : Memory) : (setMem m s).pc = s.pc := rfl
@[simp] theorem setMem_flags (m : Memory) : (setMem m s).flags = s.flags := rfl
@[simp] theorem setMem_run (m : Memory) : (setMem m s).run = s.run := rfl
@[simp] theorem setMem_mem (m : Memory) : (setMem m s).mem = m := rfl
@[simp] theorem setMem_trace (m : Memory) : (setMem m s).trace = s.trace := rfl
@[simp] theorem setMem_env (m : Memory) : (setMem m s).env = s.env := rfl
@[simp] theorem setMem_config (m : Memory) : (setMem m s).config = s.config := rfl

@[simp] theorem setEnv_regs (e : Environment) : (setEnv e s).regs = s.regs := rfl
@[simp] theorem setEnv_pc (e : Environment) : (setEnv e s).pc = s.pc := rfl
@[simp] theorem setEnv_flags (e : Environment) : (setEnv e s).flags = s.flags := rfl
@[simp] theorem setEnv_run (e : Environment) : (setEnv e s).run = s.run := rfl
@[simp] theorem setEnv_mem (e : Environment) : (setEnv e s).mem = s.mem := rfl
@[simp] theorem setEnv_trace (e : Environment) : (setEnv e s).trace = s.trace := rfl
@[simp] theorem setEnv_env (e : Environment) : (setEnv e s).env = e := rfl
@[simp] theorem setEnv_config (e : Environment) : (setEnv e s).config = s.config := rfl

@[simp] theorem record_regs (e : DevEvent) : (record e s).regs = s.regs := rfl
@[simp] theorem record_pc (e : DevEvent) : (record e s).pc = s.pc := rfl
@[simp] theorem record_flags (e : DevEvent) : (record e s).flags = s.flags := rfl
@[simp] theorem record_run (e : DevEvent) : (record e s).run = s.run := rfl
@[simp] theorem record_mem (e : DevEvent) : (record e s).mem = s.mem := rfl
@[simp] theorem record_trace (e : DevEvent) : (record e s).trace = s.trace ++ [e] := rfl
@[simp] theorem record_env (e : DevEvent) : (record e s).env = s.env := rfl
@[simp] theorem record_config (e : DevEvent) : (record e s).config = s.config := rfl

@[simp] theorem writeReg_regs (r : Reg) (v : Word) : (writeReg r v s).regs = withReg r v s.regs := rfl
@[simp] theorem writeReg_pc (r : Reg) (v : Word) : (writeReg r v s).pc = s.pc := rfl
@[simp] theorem writeReg_flags (r : Reg) (v : Word) : (writeReg r v s).flags = s.flags := rfl
@[simp] theorem writeReg_run (r : Reg) (v : Word) : (writeReg r v s).run = s.run := rfl
@[simp] theorem writeReg_mem (r : Reg) (v : Word) : (writeReg r v s).mem = s.mem := rfl
@[simp] theorem writeReg_trace (r : Reg) (v : Word) : (writeReg r v s).trace = s.trace := rfl
@[simp] theorem writeReg_env (r : Reg) (v : Word) : (writeReg r v s).env = s.env := rfl
@[simp] theorem writeReg_config (r : Reg) (v : Word) : (writeReg r v s).config = s.config := rfl

@[simp] theorem writeByte_regs (a : Addr) (b : Byte) : (writeByte a b s).regs = s.regs := rfl
@[simp] theorem writeByte_pc (a : Addr) (b : Byte) : (writeByte a b s).pc = s.pc := rfl
@[simp] theorem writeByte_flags (a : Addr) (b : Byte) : (writeByte a b s).flags = s.flags := rfl
@[simp] theorem writeByte_run (a : Addr) (b : Byte) : (writeByte a b s).run = s.run := rfl
@[simp] theorem writeByte_mem (a : Addr) (b : Byte) : (writeByte a b s).mem = storeCell s.mem a.toNat b := rfl
@[simp] theorem writeByte_trace (a : Addr) (b : Byte) : (writeByte a b s).trace = s.trace := rfl
@[simp] theorem writeByte_env (a : Addr) (b : Byte) : (writeByte a b s).env = s.env := rfl
@[simp] theorem writeByte_config (a : Addr) (b : Byte) : (writeByte a b s).config = s.config := rfl

@[simp] theorem storeWord_regs (a : Addr) (v : Word) : (storeWord a v s).regs = s.regs := rfl
@[simp] theorem storeWord_pc (a : Addr) (v : Word) : (storeWord a v s).pc = s.pc := rfl
@[simp] theorem storeWord_flags (a : Addr) (v : Word) : (storeWord a v s).flags = s.flags := rfl
@[simp] theorem storeWord_run (a : Addr) (v : Word) : (storeWord a v s).run = s.run := rfl
@[simp] theorem storeWord_trace (a : Addr) (v : Word) : (storeWord a v s).trace = s.trace := rfl
@[simp] theorem storeWord_env (a : Addr) (v : Word) : (storeWord a v s).env = s.env := rfl
@[simp] theorem storeWord_config (a : Addr) (v : Word) : (storeWord a v s).config = s.config := rfl

/-! What the reads see of an update of another field. -/

@[simp] theorem readReg_setPc (q : Reg) (t : Word) : readReg q (setPc t s) = readReg q s := rfl
@[simp] theorem readByte_setPc (x : Addr) (t : Word) : readByte x (setPc t s) = readByte x s := rfl
@[simp] theorem readWord_setPc (x : Addr) (t : Word) : readWord x (setPc t s) = readWord x s := rfl
@[simp] theorem readReg_setFlags (q : Reg) (f : Flags) : readReg q (setFlags f s) = readReg q s := rfl
@[simp] theorem readByte_setFlags (x : Addr) (f : Flags) : readByte x (setFlags f s) = readByte x s := rfl
@[simp] theorem readWord_setFlags (x : Addr) (f : Flags) : readWord x (setFlags f s) = readWord x s := rfl
@[simp] theorem nextPc_setFlags (f : Flags) : nextPc (setFlags f s) = nextPc s := rfl
@[simp] theorem readReg_setRun (q : Reg) (r : RunState) : readReg q (setRun r s) = readReg q s := rfl
@[simp] theorem readByte_setRun (x : Addr) (r : RunState) : readByte x (setRun r s) = readByte x s := rfl
@[simp] theorem readWord_setRun (x : Addr) (r : RunState) : readWord x (setRun r s) = readWord x s := rfl
@[simp] theorem nextPc_setRun (r : RunState) : nextPc (setRun r s) = nextPc s := rfl
@[simp] theorem readReg_setMem (q : Reg) (m : Memory) : readReg q (setMem m s) = readReg q s := rfl
@[simp] theorem nextPc_setMem (m : Memory) : nextPc (setMem m s) = nextPc s := rfl
@[simp] theorem readReg_setEnv (q : Reg) (e : Environment) : readReg q (setEnv e s) = readReg q s := rfl
@[simp] theorem readByte_setEnv (x : Addr) (e : Environment) : readByte x (setEnv e s) = readByte x s := rfl
@[simp] theorem readWord_setEnv (x : Addr) (e : Environment) : readWord x (setEnv e s) = readWord x s := rfl
@[simp] theorem nextPc_setEnv (e : Environment) : nextPc (setEnv e s) = nextPc s := rfl
@[simp] theorem readReg_record (q : Reg) (e : DevEvent) : readReg q (record e s) = readReg q s := rfl
@[simp] theorem readByte_record (x : Addr) (e : DevEvent) : readByte x (record e s) = readByte x s := rfl
@[simp] theorem readWord_record (x : Addr) (e : DevEvent) : readWord x (record e s) = readWord x s := rfl
@[simp] theorem nextPc_record (e : DevEvent) : nextPc (record e s) = nextPc s := rfl
@[simp] theorem readByte_writeReg (x : Addr) (r : Reg) (v : Word) : readByte x (writeReg r v s) = readByte x s := rfl
@[simp] theorem readWord_writeReg (x : Addr) (r : Reg) (v : Word) : readWord x (writeReg r v s) = readWord x s := rfl
@[simp] theorem nextPc_writeReg (r : Reg) (v : Word) : nextPc (writeReg r v s) = nextPc s := rfl
@[simp] theorem readReg_writeByte (q : Reg) (a : Addr) (b : Byte) : readReg q (writeByte a b s) = readReg q s := rfl
@[simp] theorem nextPc_writeByte (a : Addr) (b : Byte) : nextPc (writeByte a b s) = nextPc s := rfl
@[simp] theorem readReg_storeWord (q : Reg) (a : Addr) (v : Word) : readReg q (storeWord a v s) = readReg q s := rfl
@[simp] theorem nextPc_storeWord (a : Addr) (v : Word) : nextPc (storeWord a v s) = nextPc s := rfl

end Sys2Proof.Machine
end

