-- ==== Sys2Proof/Laws/Memory.lean ====
section
/-! SUPPORT. Memory as a list: reading after storing, and the canonical form that every store keeps. -/

namespace Sys2Proof.Machine

theorem lookupCell_storeCell (m : Memory) (a x : Nat) (b : Byte) :
    lookupCell (storeCell m a b) x = if x = a then some b else lookupCell m x := by
  induction m with
  | nil => 
    by_cases h : x = a
    · simp [storeCell, lookupCell, h]
    · simp [storeCell, lookupCell, h, Ne.symm h]
  | cons c m ih =>
    obtain ⟨k, v⟩ := c
    unfold storeCell
    split
    · next hk =>
      by_cases h : x = a
      · simp [lookupCell, h]
      · simp [lookupCell, h, Ne.symm h]
    · split
      · next hk =>
        subst hk
        by_cases h : x = a
        · simp [lookupCell, h]
        · simp [lookupCell, h, Ne.symm h]
      · next hk =>
        by_cases hx : k = x
        · subst hx
          simp [lookupCell, Ne.symm hk]
        · simp [lookupCell, hx, ih]

theorem cellsRiseFrom_storeCell {m : Memory} {lo a : Nat} (hlo : lo ≤ a) (ha : a < memBytes) (b : Byte)
    (h : cellsRiseFrom lo m = true) : cellsRiseFrom lo (storeCell m a b) = true := by
  induction m generalizing lo with
  | nil => simp [storeCell, cellsRiseFrom, hlo, ha]
  | cons c m ih =>
    obtain ⟨k, v⟩ := c
    simp only [cellsRiseFrom, Bool.and_eq_true, decide_eq_true_eq] at h
    obtain ⟨⟨h1, h2⟩, h3⟩ := h
    unfold storeCell
    split
    · next hk =>
      simp only [cellsRiseFrom, Bool.and_eq_true, decide_eq_true_eq]
      exact ⟨⟨hlo, ha⟩, ⟨hk, h2⟩, h3⟩
    · split
      · next hk =>
        subst hk
        simp only [cellsRiseFrom, Bool.and_eq_true, decide_eq_true_eq]
        exact ⟨⟨hlo, ha⟩, h3⟩
      · next hk1 hk2 =>
        simp only [cellsRiseFrom, Bool.and_eq_true, decide_eq_true_eq]
        exact ⟨⟨h1, h2⟩, ih (by omega) h3⟩

/-- A store of one byte keeps the canonical form. -/
theorem writeByte_keeps_wf (a : Addr) (b : Byte) {s : State} (h : s.mem.wf = true) :
    (writeByte a b s).mem.wf = true :=
  cellsRiseFrom_storeCell (Nat.zero_le _) a.isLt b h

/-- A store of one word keeps the canonical form. -/
theorem storeWord_keeps_wf (a : Addr) (v : Word) {s : State} (h : s.mem.wf = true) :
    (storeWord a v s).mem.wf = true :=
  writeByte_keeps_wf _ _ (writeByte_keeps_wf _ _ h)

/-- The host's loading keeps the canonical form. -/
theorem loadBytes_keeps_wf (bs : List Byte) : ∀ (a : Addr) {s : State}, s.mem.wf = true →
    (loadBytes a bs s).mem.wf = true := by
  induction bs with
  | nil => intro a s h; exact h
  | cons b bs ih => intro a s h; exact ih (a + 1#17) (writeByte_keeps_wf a b h)

theorem reset_mem_wf : State.reset.mem.wf = true := rfl

theorem readByte_writeByte (x a : Addr) (b : Byte) (s : State) :
    readByte x (writeByte a b s) = if x = a then b else readByte x s := by
  unfold readByte
  rw [writeByte_mem, lookupCell_storeCell]
  by_cases h : x = a
  · simp [h]
  · have h' : x.toNat ≠ a.toNat := fun h' => h (BitVec.eq_of_toNat_eq h')
    simp [h, h']

theorem addr_ne_succ (a : Addr) : a ≠ a + 1#17 := by
  intro h
  have := congrArg BitVec.toNat h
  simp [BitVec.toNat_add] at this
  omega

/-- What every byte reads as after a word is stored (R55). -/
theorem readByte_storeWord (x a : Addr) (v : Word) (s : State) :
    readByte x (storeWord a v s) =
      if x = a then byteAtLow s.config.byteOrder v
      else if x = a + 1#17 then byteAtHigh s.config.byteOrder v
      else readByte x s := by
  unfold storeWord
  rw [readByte_writeByte, readByte_writeByte]
  by_cases h : x = a
  · rw [if_neg (fun h' => addr_ne_succ a (h.symm.trans h')), if_pos h, if_pos h]
  · rw [if_neg h, if_neg h]

theorem readByte_of_mem_eq {s t : State} (h : t.mem = s.mem) (x : Addr) : readByte x t = readByte x s := by
  simp [readByte, h]

theorem accessAllowed_iff (mis : Misaligned) (a : Addr) :
    accessAllowed mis a = true ↔ a.toNat % 2 = 0 ∨ mis = .split := by
  cases mis
  · simp [accessAllowed, BitVec.getLsbD, Nat.testBit_zero]
  · simp [accessAllowed]

/-- The bytes of a word, put together again, are the word (R54, R55). -/
theorem wordOfBytes_bytes (order : ByteOrder) (v : Word) :
    wordOfBytes order (byteAtLow order v) (byteAtHigh order v) = v := by
  have key : v.extractLsb' 8 8 ++ v.extractLsb' 0 8 = v := by
    rw [BitVec.extractLsb'_append_extractLsb'_eq_extractLsb' (by omega)]
    simp
  cases order <;> exact key

/-- `MemRead` answers the two bytes in the machine's order, or nothing where misaligned (R54, R57). -/
theorem readWord_eq_some {a : Addr} {s : State} {w : Word} :
    readWord a s = some w ↔ accessAllowed s.config.misaligned a = true ∧
      w = wordOfBytes s.config.byteOrder (readByte a s) (readByte (a + 1#17) s) := by
  unfold readWord
  split
  · next h => simp [h, eq_comm (a := w)]
  · next h => simp [h]

theorem readWord_eq_none {a : Addr} {s : State} :
    readWord a s = none ↔ accessAllowed s.config.misaligned a = false := by
  unfold readWord
  split <;> simp_all

theorem writeWord_eq_some {a : Addr} {v : Word} {s t : State} :
    writeWord a v s = some t ↔ accessAllowed s.config.misaligned a = true ∧ t = storeWord a v s := by
  unfold writeWord
  split
  · next h => simp [h, eq_comm (a := t)]
  · next h => simp [h]

theorem writeWord_eq_none {a : Addr} {v : Word} {s : State} :
    writeWord a v s = none ↔ accessAllowed s.config.misaligned a = false := by
  unfold writeWord
  split <;> simp_all

/-- A word read depends only on the two bytes, the byte order and the alignment rule. -/
theorem readWord_congr {a : Addr} {s t : State} (hc : t.config = s.config) (h0 : readByte a t = readByte a s)
    (h1 : readByte (a + 1#17) t = readByte (a + 1#17) s) : readWord a t = readWord a s := by
  simp [readWord, hc, h0, h1]

/-- The word just stored is read back (R61). -/
theorem readWord_storeWord (a : Addr) (v : Word) (s : State)
    (h : accessAllowed s.config.misaligned a = true) : readWord a (storeWord a v s) = some v := by
  rw [readWord_eq_some]
  refine ⟨by simpa using h, ?_⟩
  rw [readByte_storeWord, readByte_storeWord, if_pos rfl, if_neg (addr_ne_succ a).symm, if_pos rfl]
  simp [wordOfBytes_bytes]

end Sys2Proof.Machine
end

