-- ==== Sys2Proof/Laws/Registers.lean ====
section
/-! SUPPORT. Reading a register after writing one (R8, R20, R21). -/

namespace Sys2Proof.Machine

@[simp] theorem readReg_r0 (s : State) : readReg .r0 s = 0x0000#16 := rfl

@[simp] theorem writeReg_r0 (v : Word) (s : State) : writeReg .r0 v s = s := rfl

theorem readReg_writeReg (q r : Reg) (v : Word) (s : State) :
    readReg q (writeReg r v s) = if q = r ∧ r ≠ .r0 then v else readReg q s := by
  cases q <;> cases r <;> rfl

theorem readReg_writeReg_same (r : Reg) (v : Word) (s : State) :
    readReg r (writeReg r v s) = if r = .r0 then 0x0000#16 else v := by
  cases r <;> rfl

theorem readReg_writeReg_other {q r : Reg} (h : q ≠ r) (v : Word) (s : State) :
    readReg q (writeReg r v s) = readReg q s := by
  rw [readReg_writeReg, if_neg (fun h' => h h'.1)]

theorem readReg_of_regs_eq {s t : State} (h : t.regs = s.regs) (q : Reg) : readReg q t = readReg q s := by
  cases q <;> simp [readReg, h]

end Sys2Proof.Machine
end

