-- ==== Sys2Proof/Laws/Outcomes.lean ====
section
/-! SUPPORT. Once for each shared operation: everything it can answer (R26, R27, R59, R182, R202). -/

namespace Sys2Proof.Machine

/-- The next address, where the instruction has one (R26). -/
theorem nextPc_eq_some {s : State} {n : Word} : nextPc s = some n ↔ NpcDefined s ∧ n = npcOf s := by
  have e : s.pc + 2#16 = npcOf s := by
    apply BitVec.eq_of_toNat_eq
    simp [npcOf, BitVec.toNat_add]
  unfold nextPc NpcDefined
  rw [e]
  cases s.config.pcWrap with
  | wrap => simp [eq_comm (a := n)]
  | fault =>
    by_cases h : s.pc.toNat + 2 < 65536
    · simp [h, eq_comm (a := n)]
    · simp [h]

theorem nextPc_eq_none {s : State} : nextPc s = none ↔ ¬ NpcDefined s := by
  constructor
  · intro h hn
    have := nextPc_eq_some.mpr ⟨hn, rfl⟩
    simp [h] at this
  · intro h
    cases hn : nextPc s with
    | none => rfl
    | some n => exact absurd (nextPc_eq_some.mp hn).1 h

theorem advance_of_npcDefined {s : State} (h : NpcDefined s) : advance s = .next (setPc (npcOf s) s) := by
  unfold advance
  rw [nextPc_eq_some.mpr ⟨h, rfl⟩]

/-- An instruction that ends with `pc <- npc` answers this next state and no other (R26). -/
theorem advance_eq_next {s t : State} : advance s = .next t ↔ NpcDefined s ∧ t = setPc (npcOf s) s := by
  constructor
  · intro h
    by_cases hn : NpcDefined s
    · rw [advance_of_npcDefined hn] at h
      cases h
      exact ⟨hn, rfl⟩
    · unfold advance at h
      rw [nextPc_eq_none.mpr hn] at h
      cases h
  · rintro ⟨h, rfl⟩
    exact advance_of_npcDefined h

/-- The same after updates that leave the pc and the parameters alone. -/
theorem advance_updated {s u t : State} (hp : u.pc = s.pc) (hc : u.config = s.config) :
    advance u = .next t ↔ NpcDefined s ∧ t = setPc (npcOf s) u := by
  rw [advance_eq_next]
  simp only [NpcDefined, npcOf, hp, hc]

/-- Otherwise it stops with the fault of `PC_WRAP = fault` (U10). -/
theorem advance_eq_fault {s : State} {f : Fault} : advance s = .fault f ↔ ¬ NpcDefined s ∧ f = .pcWrap s.pc := by
  unfold advance
  cases h : nextPc s with
  | none => simp [nextPc_eq_none.mp h, eq_comm]
  | some n => simp [(nextPc_eq_some.mp h).1]

theorem jumpTo_eq_next {w : Word} {s t : State} : jumpTo w s = .next t ↔ t = setPc w s := by
  unfold jumpTo
  constructor
  · intro h; cases h; rfl
  · rintro rfl; rfl

theorem takeException_eq_next {c : Cause} {s t : State} :
    takeException c s = .next t ↔ t = setRun (.exception c s.pc) s := by
  unfold takeException
  constructor
  · intro h; cases h; rfl
  · rintro rfl; rfl

theorem waitForDevice_eq_next {s t : State} : waitForDevice s = .next t ↔ t = setEnv (answered s.env) s := by
  unfold waitForDevice
  constructor
  · intro h; cases h; rfl
  · rintro rfl; rfl

/-- The fetch answers the word at pc (R59). -/
theorem fetch_eq_ok {s : State} {w : Word} : fetch s = .ok w ↔ readWord (physical s.pc) s = some w := by
  unfold fetch
  cases readWord (physical s.pc) s <;> simp

theorem fetch_eq_error {s : State} {f : Fault} :
    fetch s = .error f ↔ readWord (physical s.pc) s = none ∧ f = .misalignedFetch s.pc := by
  unfold fetch
  cases readWord (physical s.pc) s <;> simp [eq_comm]

@[simp] theorem npcOf_writeReg (r : Reg) (v : Word) (s : State) : npcOf (writeReg r v s) = npcOf s := rfl
@[simp] theorem npcOf_setFlags (f : Flags) (s : State) : npcOf (setFlags f s) = npcOf s := rfl
@[simp] theorem npcOf_setRun (r : RunState) (s : State) : npcOf (setRun r s) = npcOf s := rfl
@[simp] theorem npcOf_storeWord (a : Addr) (v : Word) (s : State) : npcOf (storeWord a v s) = npcOf s := rfl
@[simp] theorem npcOf_setEnv (e : Environment) (s : State) : npcOf (setEnv e s) = npcOf s := rfl
@[simp] theorem npcOf_record (e : DevEvent) (s : State) : npcOf (record e s) = npcOf s := rfl

/-! A completed device access: what it leaves (R181, R187, R188). -/

section Devices

variable (d : InputDevice) (o : OutputDevice) (v : Word) (s : State)

@[simp] theorem afterDevRead_regs : (afterDevRead d s).regs = s.regs := rfl
@[simp] theorem afterDevRead_pc : (afterDevRead d s).pc = s.pc := rfl
@[simp] theorem afterDevRead_flags : (afterDevRead d s).flags = s.flags := rfl
@[simp] theorem afterDevRead_run : (afterDevRead d s).run = s.run := rfl
@[simp] theorem afterDevRead_mem : (afterDevRead d s).mem = s.mem := rfl
@[simp] theorem afterDevRead_config : (afterDevRead d s).config = s.config := rfl
@[simp] theorem afterDevRead_env : (afterDevRead d s).env = consumed d (answered s.env) := rfl
@[simp] theorem afterDevRead_trace :
    (afterDevRead d s).trace = s.trace ++ [.input d (devReadValue d s.env)] := rfl
@[simp] theorem afterDevRead_npcOf : npcOf (afterDevRead d s) = npcOf s := rfl
@[simp] theorem readReg_afterDevRead (q : Reg) : readReg q (afterDevRead d s) = readReg q s := rfl
@[simp] theorem readByte_afterDevRead (a : Addr) : readByte a (afterDevRead d s) = readByte a s := rfl
@[simp] theorem afterDevWrite_regs : (afterDevWrite o v s).regs = s.regs := rfl
@[simp] theorem afterDevWrite_pc : (afterDevWrite o v s).pc = s.pc := rfl
@[simp] theorem afterDevWrite_flags : (afterDevWrite o v s).flags = s.flags := rfl
@[simp] theorem afterDevWrite_run : (afterDevWrite o v s).run = s.run := rfl
@[simp] theorem afterDevWrite_mem : (afterDevWrite o v s).mem = s.mem := rfl
@[simp] theorem afterDevWrite_config : (afterDevWrite o v s).config = s.config := rfl
@[simp] theorem afterDevWrite_env : (afterDevWrite o v s).env = answered s.env := rfl
@[simp] theorem afterDevWrite_trace : (afterDevWrite o v s).trace = s.trace ++ [.output o v] := rfl
@[simp] theorem afterDevWrite_npcOf : npcOf (afterDevWrite o v s) = npcOf s := rfl
@[simp] theorem readReg_afterDevWrite (q : Reg) : readReg q (afterDevWrite o v s) = readReg q s := rfl
@[simp] theorem readByte_afterDevWrite (a : Addr) : readByte a (afterDevWrite o v s) = readByte a s := rfl

end Devices

end Sys2Proof.Machine
end

