-- ==== Sys2Proof/Laws/Meanings.lean ====
section
/-! SUPPORT. For each meaning, the one next state it can answer and when (R110 to R188). A statement about an
instruction cites its lemma here and does not unfold the meaning. -/

namespace Sys2Proof.Machine

variable {s t : State}

theorem execAdd_eq_next {rd rs : Reg} {imm5 : BitVec 5} :
    execAdd rd rs imm5 s = .next t ↔ NpcDefined s ∧
      t = setPc (npcOf s) (setFlags (addFlags (readReg rs s) (regImm s.config.rimmExt imm5))
        (writeReg rd (addResult (readReg rs s) (regImm s.config.rimmExt imm5)) s)) :=
  advance_eq_next

theorem execSub_eq_next {rd rs : Reg} {imm5 : BitVec 5} :
    execSub rd rs imm5 s = .next t ↔ NpcDefined s ∧
      t = setPc (npcOf s) (setFlags (subFlags s.config.subCarry (readReg rs s) (regImm s.config.rimmExt imm5))
        (writeReg rd (subResult (readReg rs s) (regImm s.config.rimmExt imm5)) s)) :=
  advance_eq_next

theorem execMul_eq_next {rd rs : Reg} {imm5 : BitVec 5} :
    execMul rd rs imm5 s = .next t ↔ NpcDefined s ∧
      t = setPc (npcOf s) (setFlags (mulFlags (readReg rs s) (regImm s.config.rimmExt imm5) s.flags)
        (writeReg rd (mulResult (readReg rs s) (regImm s.config.rimmExt imm5)) s)) :=
  advance_eq_next

theorem execDiv_eq_next {rd rs : Reg} {imm5 : BitVec 5} :
    execDiv rd rs imm5 s = .next t ↔
      (regImm s.config.rimmExt imm5 = 0x0000#16 ∧ t = setRun (.exception .divideByZero s.pc) s) ∨
      (regImm s.config.rimmExt imm5 ≠ 0x0000#16 ∧ NpcDefined s ∧
        t = setPc (npcOf s) (setFlags (divFlags (readReg rs s) (regImm s.config.rimmExt imm5) s.flags)
          (writeReg rd (divResult (readReg rs s) (regImm s.config.rimmExt imm5)) s))) := by
  unfold execDiv
  by_cases h : regImm s.config.rimmExt imm5 = 0x0000#16
  · simp only [h, if_true]
    rw [takeException_eq_next]
    simp
  · simp only [h, if_false]
    rw [advance_updated (s := s) (u := setFlags (divFlags (readReg rs s) (regImm s.config.rimmExt imm5) s.flags)
      (writeReg rd (divResult (readReg rs s) (regImm s.config.rimmExt imm5)) s)) rfl rfl]
    simp [h]

theorem execAnd_eq_next {rd rs : Reg} {imm5 : BitVec 5} :
    execAnd rd rs imm5 s = .next t ↔ NpcDefined s ∧
      t = setPc (npcOf s) (writeReg rd (readReg rs s &&& regImm s.config.rimmExt imm5) s) :=
  advance_eq_next

theorem execOr_eq_next {rd rs : Reg} {imm5 : BitVec 5} :
    execOr rd rs imm5 s = .next t ↔ NpcDefined s ∧
      t = setPc (npcOf s) (writeReg rd (readReg rs s ||| regImm s.config.rimmExt imm5) s) :=
  advance_eq_next

theorem execXor_eq_next {rd rs : Reg} {imm5 : BitVec 5} :
    execXor rd rs imm5 s = .next t ↔ NpcDefined s ∧
      t = setPc (npcOf s) (writeReg rd (readReg rs s ^^^ regImm s.config.rimmExt imm5) s) :=
  advance_eq_next

theorem execNot_eq_next {rd rs : Reg} :
    execNot rd rs s = .next t ↔ NpcDefined s ∧ t = setPc (npcOf s) (writeReg rd (~~~(readReg rs s)) s) :=
  advance_eq_next

theorem execLd_eq_next {rd rs : Reg} {imm5 : BitVec 5} :
    execLd rd rs imm5 s = .next t ↔ NpcDefined s ∧ ∃ v,
      readWord (physical (dataAddress rs imm5 s)) s = some v ∧ t = setPc (npcOf s) (writeReg rd v s) := by
  unfold execLd
  cases h : readWord (physical (dataAddress rs imm5 s)) s with
  | none => simp [h]
  | some v =>
    simp only [h]
    rw [advance_updated (s := s) (u := writeReg rd v s) rfl rfl]
    simp

theorem execSt_eq_next {rd rs : Reg} {imm5 : BitVec 5} :
    execSt rd rs imm5 s = .next t ↔ NpcDefined s ∧
      accessAllowed s.config.misaligned (physical (dataAddress rd imm5 s)) = true ∧
      t = setPc (npcOf s) (storeWord (physical (dataAddress rd imm5 s)) (readReg rs s) s) := by
  unfold execSt
  cases h : writeWord (physical (dataAddress rd imm5 s)) (readReg rs s) s with
  | none => simp [h, writeWord_eq_none.mp h]
  | some w =>
    obtain ⟨ha, rfl⟩ := writeWord_eq_some.mp h
    simp only [h, ha]
    rw [advance_updated (s := s) (u := storeWord (physical (dataAddress rd imm5 s)) (readReg rs s) s) rfl rfl]
    simp

theorem execLdi_eq_next {rd : Reg} {imm8 : BitVec 8} :
    execLdi rd imm8 s = .next t ↔ NpcDefined s ∧ t = setPc (npcOf s) (writeReg rd (ldiImm imm8) s) :=
  advance_eq_next

theorem execLda_eq_next {rd : Reg} {imm8 : BitVec 8} :
    execLda rd imm8 s = .next t ↔ NpcDefined s ∧ t = setPc (npcOf s) (writeReg rd (ldaImm imm8) s) :=
  advance_eq_next

theorem execJmp_eq_next {imm8 : BitVec 8} : execJmp imm8 s = .next t ↔ t = setPc (jmpTarget imm8) s :=
  jumpTo_eq_next

theorem execJz_eq_next {rd : Reg} {imm5 : BitVec 5} :
    execJz rd imm5 s = .next t ↔
      (readReg rd s = 0x0000#16 ∧ t = setPc (branchTarget imm5) s) ∨
      (readReg rd s ≠ 0x0000#16 ∧ NpcDefined s ∧ t = setPc (npcOf s) s) := by
  unfold execJz
  by_cases h : readReg rd s = 0x0000#16
  · rw [if_pos h, jumpTo_eq_next]; simp [h]
  · rw [if_neg h, advance_eq_next]; simp [h]

theorem execJnz_eq_next {rd : Reg} {imm5 : BitVec 5} :
    execJnz rd imm5 s = .next t ↔
      (readReg rd s ≠ 0x0000#16 ∧ t = setPc (branchTarget imm5) s) ∨
      (readReg rd s = 0x0000#16 ∧ NpcDefined s ∧ t = setPc (npcOf s) s) := by
  unfold execJnz
  by_cases h : readReg rd s = 0x0000#16
  · rw [if_neg (by simpa using h), advance_eq_next]; simp [h]
  · rw [if_pos h, jumpTo_eq_next]; simp [h]

theorem execCall_eq_next {rd : Reg} :
    execCall rd s = .next t ↔ NpcDefined s ∧ t = setPc (readReg rd s) (writeReg .r3 (npcOf s) s) := by
  unfold execCall
  cases h : nextPc s with
  | none => simp [nextPc_eq_none.mp h]
  | some n =>
    obtain ⟨hn, rfl⟩ := nextPc_eq_some.mp h
    simp only [hn, jumpTo_eq_next]
    simp

theorem execIn_eq_next {rd : Reg} {dev : BitVec 5} :
    execIn rd dev s = .next t ↔ ∃ d, inputDevice dev = some d ∧
      ((accessHeld s.env = true ∧ t = setEnv (answered s.env) s) ∨
       (accessHeld s.env = false ∧ NpcDefined s ∧
        t = setPc (npcOf s) (writeReg rd (devReadValue d s.env) (afterDevRead d s)))) := by
  unfold execIn
  cases inputDevice dev with
  | none => simp
  | some d =>
    cases h : accessHeld s.env
    · refine (advance_updated (s := s) (u := writeReg rd (devReadValue d s.env) (afterDevRead d s)) rfl rfl).trans ?_
      simp
    · refine waitForDevice_eq_next.trans ?_
      simp

theorem execOut_eq_next {rs : Reg} {dev : BitVec 5} :
    execOut dev rs s = .next t ↔ ∃ d, outputDevice dev = some d ∧
      ((accessHeld s.env = true ∧ t = setEnv (answered s.env) s) ∨
       (accessHeld s.env = false ∧ NpcDefined s ∧
        t = setPc (npcOf s) (afterDevWrite d (readReg rs s) s))) := by
  unfold execOut
  cases outputDevice dev with
  | none => simp
  | some d =>
    cases h : accessHeld s.env
    · refine (advance_updated (s := s) (u := afterDevWrite d (readReg rs s) s) rfl rfl).trans ?_
      simp
    · refine waitForDevice_eq_next.trans ?_
      simp

theorem execHalt_eq_next : execHalt s = .next t ↔ NpcDefined s ∧ t = setPc (npcOf s) (setRun .halted s) :=
  advance_eq_next

theorem execNop_eq_next : execNop s = .next t ↔ NpcDefined s ∧ t = setPc (npcOf s) s :=
  advance_eq_next

/-- Everything one step can do when it answers a next state: nothing where the machine has stopped, else the meaning
of the instruction fetched at pc (R37, R205). -/
theorem step_eq_next : step s = .next t ↔
    (s.run ≠ .running ∧ t = s) ∨
    (s.run = .running ∧ ∃ w i, fetch s = .ok w ∧ decode s.config.unusedFields w = .instr i ∧ exec i s = .next t) := by
  unfold step
  cases hr : s.run with
  | running =>
    cases hf : fetch s with
    | error f => simp
    | ok w =>
      cases hd : decode s.config.unusedFields w with
      | instr i => simp [hd]
      | reservedOpcode w' => simp [hd]
      | unusedFieldSet w' => simp [hd]
  | halted => simp [eq_comm]
  | exception c a => simp [eq_comm]

end Sys2Proof.Machine
end

