-- ==== Sys2Proof/Laws/Frames.lean ====
section
/-! SUPPORT. The frame of each shape of next state, the words that select an instruction, and the exact results in
terms of BitVec's own operations. -/

namespace Sys2Proof.Machine

/-! Frames. -/

theorem registerFrame_writeReg (rd : Reg) (s : State) (v p : Word) :
    RegisterFrame rd s (setPc p (writeReg rd v s)) :=
  ⟨fun _ hr => readReg_writeReg_other (by simpa using hr) v s, fun _ => rfl, ⟨rfl, rfl⟩, rfl, rfl⟩

theorem registerFrame_writeReg_flags (rd : Reg) (s : State) (v p : Word) (f : Flags) :
    RegisterFrame rd s (setPc p (setFlags f (writeReg rd v s))) :=
  ⟨fun _ hr => readReg_writeReg_other (by simpa using hr) v s, fun _ => rfl, ⟨rfl, rfl⟩, rfl, rfl⟩

theorem registerFrame_setPc (rd : Reg) (s : State) (p : Word) : RegisterFrame rd s (setPc p s) :=
  ⟨fun _ _ => rfl, fun _ => rfl, ⟨rfl, rfl⟩, rfl, rfl⟩

/-- Only the two bytes of a stored word read otherwise than before (R55). -/
theorem readByte_storeWord_other {x a : Addr} (h0 : x ≠ a) (h1 : x ≠ a + 1#17) (v : Word) (s : State) :
    readByte x (storeWord a v s) = readByte x s := by
  rw [readByte_storeWord, if_neg h0, if_neg h1]

/-! Decoding by the opcode field. -/

/-- The decoder under `UNUSED_FIELDS = ignore` is the opcode map (R91). -/
theorem decode_ignore (w : Word) :
    decode .ignore w = match decodeOpcode w with | some i => .instr i | none => .reservedOpcode w := by
  unfold decode
  cases decodeOpcode w <;> rfl

/-- What the opcode field answers selects the words of one row (R87). -/
theorem selects_of_opcode {m : Word} {f : Word → Instr}
    (h : ∀ w, opField w = opField m → decodeOpcode w = some (f w)) : Selects m f := by
  intro w hw
  rw [decode_ignore, h w (opField_of_masked hw)]

/-- An instruction decoded under either reading of unused fields is the opcode map's. -/
theorem decodeOpcode_of_decode {u : UnusedFields} {w : Word} {i : Instr} (h : decode u w = .instr i) :
    decodeOpcode w = some i := by
  unfold decode at h
  cases hd : decodeOpcode w with
  | none => simp [hd] at h
  | some j =>
    cases u with
    | ignore => simpa [hd] using h
    | fault =>
      simp only [hd] at h
      split at h
      · simpa using h
      · cases h

/-! Results and flags in BitVec's own operations. -/

theorem addResult_eq (a b : Word) : addResult a b = a + b := by
  unfold addResult trunc16 u
  rw [← Int.natCast_add, BitVec.ofInt_natCast]
  exact BitVec.eq_of_toNat_eq (by simp [BitVec.toNat_add])

theorem subResult_eq (a b : Word) : subResult a b = a - b := by
  unfold subResult trunc16 u
  apply BitVec.eq_of_toNat_eq
  rw [BitVec.toNat_ofInt, BitVec.toNat_sub]
  have ha := a.isLt
  have hb := b.isLt
  omega

theorem toNat_effectiveAddress (base off : Word) :
    (effectiveAddress base off).toNat = (base.toNat + off.toNat) % 65536 := by
  change (addResult base off).toNat = _
  rw [addResult_eq, BitVec.toNat_add]

theorem toNat_physical (a : Word) : (physical a).toNat = a.toNat := by
  simp only [physical, BitVec.toNat_setWidth]
  omega

theorem regImm_eq_zero_iff (ext : ImmExt) (imm5 : BitVec 5) : regImm ext imm5 = 0x0000#16 ↔ imm5 = 0#5 := by
  cases ext <;> revert imm5 <;> decide

end Sys2Proof.Machine
end

