-- ==== Sys2Proof/Laws/Runs.lean ====
section
/-! SUPPORT. Runs of several steps, and what leaves or keeps the run state (R37, R185, R200, R238). -/

namespace Sys2Proof.Machine

theorem core_run_zero (s : State) : Sys2Proof.core.run 0 s = .next s := rfl

/-- A run of any machine goes on from the next state of its first step. -/
theorem run_succ (M : Host.Core) {s t : M.State} (h : M.step s = .next t) (n : Nat) :
    M.run (n + 1) s = M.run n t := by
  simp only [Host.Core.run, h]

/-- The same of this machine. -/
theorem core_run_succ {s t : State} (h : step s = .next t) (n : Nat) :
    Sys2Proof.core.run (n + 1) s = Sys2Proof.core.run n t :=
  run_succ Sys2Proof.core h n

/-- The step of a running machine is the meaning of the instruction decoded at pc. -/
theorem step_of_decoded {s : State} {w : Word} {i : Instr} (hr : s.run = .running) (hf : fetch s = .ok w)
    (hd : decode s.config.unusedFields w = .instr i) : step s = exec i s := by
  simp [step, hr, hf, hd]

theorem step_of_stopped {s : State} (h : s.run ≠ .running) : step s = .next s :=
  step_eq_next.mpr (.inl ⟨h, rfl⟩)

theorem accessAllowed_of_accessible {a : Addr} {s : State} (h : Accessible a s) :
    accessAllowed s.config.misaligned a = true :=
  (accessAllowed_iff _ _).mpr h

theorem accessAllowed_of_not_accessible {a : Addr} {s : State} (h : ¬ Accessible a s) :
    accessAllowed s.config.misaligned a = false := by
  by_contra hc
  exact h ((accessAllowed_iff _ _).mp (by simpa using hc))

end Sys2Proof.Machine
end

