-- ==== Sys2Proof/Laws/Bisimulation.lean ====
section
/-! SUPPORT. When a relation between two machines is kept by every step: it is enough that the two agree on what steps
read and that each single update keeps the relation. -/

namespace Sys2Proof.Machine

/-- What a relation must give for every step to keep it. -/
structure StepRelation (R : State → State → Prop) : Prop where
  regs : ∀ {s t}, R s t → t.regs = s.regs
  pc : ∀ {s t}, R s t → t.pc = s.pc
  run : ∀ {s t}, R s t → t.run = s.run
  env : ∀ {s t}, R s t → t.env = s.env
  rimmExt : ∀ {s t}, R s t → t.config.rimmExt = s.config.rimmExt
  unusedFields : ∀ {s t}, R s t → t.config.unusedFields = s.config.unusedFields
  subCarry : ∀ {s t}, R s t → t.config.subCarry = s.config.subCarry
  pcWrap : ∀ {s t}, R s t → t.config.pcWrap = s.config.pcWrap
  readWord : ∀ {s t} (a : Word), R s t → readWord (physical a) t = readWord (physical a) s
  setPc : ∀ {s t} (p : Word), R s t → R (setPc p s) (setPc p t)
  setFlags : ∀ {s t} (g : Flags → Flags), R s t → R (setFlags (g s.flags) s) (setFlags (g t.flags) t)
  setRun : ∀ {s t} (r : RunState), R s t → R (setRun r s) (setRun r t)
  setEnv : ∀ {s t} (e : Environment), R s t → R (setEnv e s) (setEnv e t)
  record : ∀ {s t} (e : DevEvent), R s t → R (record e s) (record e t)
  writeReg : ∀ {s t} (r : Reg) (v : Word), R s t → R (writeReg r v s) (writeReg r v t)
  writeWord : ∀ {s t} (a v : Word), R s t →
    (writeWord (physical a) v s = none ∧ writeWord (physical a) v t = none) ∨
    ∃ s' t', writeWord (physical a) v s = some s' ∧ writeWord (physical a) v t = some t' ∧ R s' t'

namespace StepRelation

variable {R : State → State → Prop} {s t : State}

theorem readReg_eq (h : StepRelation R) (hr : R s t) (q : Reg) : readReg q t = readReg q s :=
  readReg_of_regs_eq (h.regs hr) q

theorem nextPc_eq (h : StepRelation R) (hr : R s t) : nextPc t = nextPc s := by
  simp [nextPc, h.pc hr, h.pcWrap hr]

theorem advance_related (h : StepRelation R) (hr : R s t) : OutcomesRelated R (advance s) (advance t) := by
  unfold advance
  rw [h.nextPc_eq hr]
  cases nextPc s with
  | none => simp [OutcomesRelated, h.pc hr]
  | some n => exact h.setPc n hr

/-- Every instruction keeps the relation. -/
theorem exec_related (h : StepRelation R) (hr : R s t) (i : Instr) :
    OutcomesRelated R (exec i s) (exec i t) := by
  have hx := h.readReg_eq hr
  have hi := h.rimmExt hr
  cases i with
  | add rd rs v =>
    simp only [exec, execAdd, hx, hi]
    exact h.advance_related (h.setFlags (fun _ => addFlags _ _) (h.writeReg _ _ hr))
  | sub rd rs v =>
    simp only [exec, execSub, hx, hi, h.subCarry hr]
    exact h.advance_related (h.setFlags (fun _ => subFlags _ _ _) (h.writeReg _ _ hr))
  | mul rd rs v =>
    simp only [exec, execMul, hx, hi]
    exact h.advance_related (h.setFlags (mulFlags _ _) (h.writeReg _ _ hr))
  | div rd rs v =>
    simp only [exec, execDiv, hx, hi]
    split
    · simp only [takeException, h.pc hr]
      exact h.setRun _ hr
    · exact h.advance_related (h.setFlags (divFlags _ _) (h.writeReg _ _ hr))
  | and rd rs v =>
    simp only [exec, execAnd, hx, hi]
    exact h.advance_related (h.writeReg _ _ hr)
  | or rd rs v =>
    simp only [exec, execOr, hx, hi]
    exact h.advance_related (h.writeReg _ _ hr)
  | xor rd rs v =>
    simp only [exec, execXor, hx, hi]
    exact h.advance_related (h.writeReg _ _ hr)
  | not rd rs =>
    simp only [exec, execNot, hx]
    exact h.advance_related (h.writeReg _ _ hr)
  | ld rd rs v =>
    simp only [exec, execLd, dataAddress, hx, hi, h.readWord _ hr, h.pc hr]
    split
    · rfl
    · exact h.advance_related (h.writeReg _ _ hr)
  | st rd rs v =>
    simp only [exec, execSt, dataAddress, hx, hi, h.pc hr]
    rcases h.writeWord (effectiveAddress (readReg rd s) (regImm s.config.rimmExt v)) (readReg rs s) hr with
      ⟨h1, h2⟩ | ⟨s', t', h1, h2, h3⟩
    · simp [h1, h2, OutcomesRelated]
    · simp only [h1, h2]
      exact h.advance_related h3
  | ldi rd v => exact h.advance_related (h.writeReg _ _ hr)
  | lda rd v => exact h.advance_related (h.writeReg _ _ hr)
  | jmp v => exact h.setPc _ hr
  | jz rd v =>
    simp only [exec, execJz, hx]
    split
    · exact h.setPc _ hr
    · exact h.advance_related hr
  | jnz rd v =>
    simp only [exec, execJnz, hx]
    split
    · exact h.setPc _ hr
    · exact h.advance_related hr
  | call rd =>
    simp only [exec, execCall, hx, h.nextPc_eq hr, h.pc hr]
    split
    · rfl
    · exact h.setPc _ (h.writeReg _ _ hr)
  | inp rd dev =>
    simp only [exec, execIn, h.env hr, h.pc hr]
    split
    · rfl
    · split
      · simp only [waitForDevice, h.env hr]
        exact h.setEnv _ hr
      · simp only [afterDevRead, h.env hr]
        exact h.advance_related (h.writeReg _ _ (h.record _ (h.setEnv _ hr)))
  | out dev rs =>
    simp only [exec, execOut, h.env hr, h.pc hr, hx]
    split
    · rfl
    · split
      · simp only [waitForDevice, h.env hr]
        exact h.setEnv _ hr
      · simp only [afterDevWrite, h.env hr]
        exact h.advance_related (h.record _ (h.setEnv _ hr))
  | halt => exact h.advance_related (h.setRun _ hr)
  | nop => exact h.advance_related hr

/-- Every step keeps the relation. -/
theorem step_related (h : StepRelation R) (hr : R s t) : OutcomesRelated R (step s) (step t) := by
  have hf : fetch t = fetch s := by simp [fetch, h.pc hr, h.readWord _ hr]
  unfold step
  rw [h.run hr, hf, h.unusedFields hr, h.pc hr]
  split
  · split
    · rfl
    · split
      · exact h.exec_related hr _
      · rfl
      · rfl
  · exact hr
  · exact hr

end StepRelation

end Sys2Proof.Machine
end

