-- ==== Sys2Proof/Laws/PerInstr.lean ====
section
/-! SUPPORT. A law of every instruction as syntax: its canonical word carries its own opcode in bits 15:11, where R81
puts it (R87, R98). -/

namespace Sys2Proof.Laws.OpcodeField

/-- The opcode field of the instruction's word is its opcode. -/
def Statement (i : Instr) : Prop := opField (encode i) = opcodeOf i

theorem add (rd rs : Reg) (imm5 : BitVec 5) : Statement (.add rd rs imm5) := opField_encodeR _ _ _ _
theorem sub (rd rs : Reg) (imm5 : BitVec 5) : Statement (.sub rd rs imm5) := opField_encodeR _ _ _ _
theorem mul (rd rs : Reg) (imm5 : BitVec 5) : Statement (.mul rd rs imm5) := opField_encodeR _ _ _ _
theorem div (rd rs : Reg) (imm5 : BitVec 5) : Statement (.div rd rs imm5) := opField_encodeR _ _ _ _
theorem and (rd rs : Reg) (imm5 : BitVec 5) : Statement (.and rd rs imm5) := opField_encodeR _ _ _ _
theorem or (rd rs : Reg) (imm5 : BitVec 5) : Statement (.or rd rs imm5) := opField_encodeR _ _ _ _
theorem xor (rd rs : Reg) (imm5 : BitVec 5) : Statement (.xor rd rs imm5) := opField_encodeR _ _ _ _
theorem not (rd rs : Reg) : Statement (.not rd rs) := opField_encodeR _ _ _ _
theorem ld (rd rs : Reg) (imm5 : BitVec 5) : Statement (.ld rd rs imm5) := opField_encodeR _ _ _ _
theorem st (rd rs : Reg) (imm5 : BitVec 5) : Statement (.st rd rs imm5) := opField_encodeR _ _ _ _
theorem ldi (rd : Reg) (imm8 : BitVec 8) : Statement (.ldi rd imm8) := opField_encodeI _ _ _
theorem lda (rd : Reg) (imm8 : BitVec 8) : Statement (.lda rd imm8) := opField_encodeI _ _ _
theorem jmp (imm8 : BitVec 8) : Statement (.jmp imm8) := opField_encodeI _ _ _
theorem jz (rd : Reg) (imm5 : BitVec 5) : Statement (.jz rd imm5) := opField_encodeR _ _ _ _
theorem jnz (rd : Reg) (imm5 : BitVec 5) : Statement (.jnz rd imm5) := opField_encodeR _ _ _ _
theorem call (rd : Reg) : Statement (.call rd) := opField_encodeR _ _ _ _
theorem inp (rd : Reg) (dev : BitVec 5) : Statement (.inp rd dev) := opField_encodeR _ _ _ _
theorem out (dev : BitVec 5) (rs : Reg) : Statement (.out dev rs) := opField_encodeR _ _ _ _
theorem halt : Statement .halt := opField_encodeN _
theorem nop : Statement .nop := opField_encodeN _

end Sys2Proof.Laws.OpcodeField
end

