-- ==== Sys2Proof/Tests/Slice0.lean ====
section
/-! SUPPORT. Tests on fixed values. Expected results are the spec's own: spec/95_test_vectors.md (the vector's number
stands in the comment), or words written out from the fields of spec/30_encoding.md. At the end, a state for the
hypotheses of every statement of Obligations.lean that has some. -/

namespace Sys2Proof.Tests

open Sys2Proof Sys2Proof.Machine

/-! Helpers: small states and what a test looks at. -/

/-- The state after reset with some registers set. -/
def regs (l : List (Reg × Word)) : State := l.foldl (fun s p => writeReg p.1 p.2 s) State.reset

/-- A state with some bytes of memory set. -/
def bytes (l : List (Nat × Nat)) (s : State) : State :=
  l.foldl (fun s p => writeByte (BitVec.ofNat 17 p.1) (BitVec.ofNat 8 p.2) s) s

/-- One step of the state with a word placed at its pc. -/
def step1 (w : Nat) (s : State) : Host.Outcome State Fault Refusal := step (s.withFetchWord 16 w)

/-- One field of the next state of such a step. -/
def after {α : Type} (w : Nat) (s : State) (f : State → α) : Option α := (nextOf (step1 w s)).map f

/-- Four flags as the vectors write them: C, V, Z, N. -/
def cvzn (c v z n : Nat) : Flags := { c := c == 1, v := v == 1, z := z == 1, n := n == 1 }

/-- Every OPEN parameter at the value that is not its default (R5). -/
def otherConfig : Config :=
  { rimmExt := .sign, unusedFields := .fault, subCarry := .notBorrow, pcWrap := .fault, byteOrder := .big,
    misaligned := .split }

/-- The state after reset of the machine with those. -/
def other : State := { State.reset with config := otherConfig }

/-! Ill-formed assembly terms, one for each check (R94, R95). -/

theorem test_wf_good : (AsmInstr.mk .add [.reg 1, .reg 2, .imm 10]).wellFormed .zero = true := by decide
theorem test_wf_missing_operand : (AsmInstr.mk .add [.reg 1, .reg 2]).wellFormed .zero = false := by decide
theorem test_wf_extra_operand : (AsmInstr.mk .halt [.reg 1]).wellFormed .zero = false := by decide
theorem test_wf_wrong_kind : (AsmInstr.mk .not [.reg 1, .imm 2]).wellFormed .zero = false := by decide
theorem test_wf_register_8 : (AsmInstr.mk .call [.reg 8]).wellFormed .zero = false := by decide
theorem test_wf_imm5_32 : (AsmInstr.mk .add [.reg 1, .reg 2, .imm 32]).wellFormed .zero = false := by decide
theorem test_wf_imm5_negative : (AsmInstr.mk .add [.reg 1, .reg 2, .imm (-1)]).wellFormed .zero = false := by decide
theorem test_wf_imm5_sign_16 : (AsmInstr.mk .add [.reg 1, .reg 2, .imm 16]).wellFormed .sign = false := by decide
theorem test_wf_offset_100 : (AsmInstr.mk .ld [.reg 1, .mem 2 100]).wellFormed .zero = false := by decide
theorem test_wf_offset_200 : (AsmInstr.mk .st [.mem 0 200, .reg 1]).wellFormed .zero = false := by decide
theorem test_wf_base_8 : (AsmInstr.mk .ld [.reg 1, .mem 8 0]).wellFormed .zero = false := by decide
theorem test_wf_ldi_128 : (AsmInstr.mk .ldi [.reg 1, .imm 128]).wellFormed .zero = false := by decide
theorem test_wf_ldi_m129 : (AsmInstr.mk .ldi [.reg 1, .imm (-129)]).wellFormed .zero = false := by decide
theorem test_wf_lda_256 : (AsmInstr.mk .lda [.reg 1, .imm 256]).wellFormed .zero = false := by decide
theorem test_wf_jmp_256 : (AsmInstr.mk .jmp [.imm 256]).wellFormed .zero = false := by decide
theorem test_wf_jz_32 : (AsmInstr.mk .jz [.reg 1, .imm 32]).wellFormed .zero = false := by decide
theorem test_wf_in_32 : (AsmInstr.mk .inp [.reg 1, .imm 32]).wellFormed .zero = false := by decide
theorem test_wf_unresolved_label : (AsmInstr.mk .jmp [.label ['x']]).wellFormed .zero = false := by decide

/-! Decoding: for each instruction a word written out field by field (op, rd, rs, imm5 or imm8; R81 to R87, R98). -/

theorem test_decode_add : decodeTableWord 16 0b00000_001_010_00101 = some (.add .r1 .r2 5#5) := by decide
theorem test_decode_sub : decodeTableWord 16 0b00001_011_100_00101 = some (.sub .r3 .r4 5#5) := by decide
theorem test_decode_mul : decodeTableWord 16 0b00010_100_101_11111 = some (.mul .r4 .r5 31#5) := by decide
theorem test_decode_div : decodeTableWord 16 0b00011_101_100_00010 = some (.div .r5 .r4 2#5) := by decide
theorem test_decode_and : decodeTableWord 16 0b00100_111_110_01111 = some (.and .r7 .r6 15#5) := by decide
theorem test_decode_or : decodeTableWord 16 0b00101_101_100_10001 = some (.or .r5 .r4 17#5) := by decide
theorem test_decode_xor : decodeTableWord 16 0b00110_110_110_11111 = some (.xor .r6 .r6 31#5) := by decide
theorem test_decode_not : decodeTableWord 16 0b00111_001_010_11111 = some (.not .r1 .r2) := by decide
theorem test_decode_ld : decodeTableWord 16 0b01000_110_100_00010 = some (.ld .r6 .r4 2#5) := by decide
theorem test_decode_st : decodeTableWord 16 0b01001_100_101_00010 = some (.st .r4 .r5 2#5) := by decide
theorem test_decode_ldi : decodeTableWord 16 0b01010_101_11111110 = some (.ldi .r5 0xFE#8) := by decide
theorem test_decode_lda : decodeTableWord 16 0b01011_100_10000000 = some (.lda .r4 0x80#8) := by decide
theorem test_decode_jmp : decodeTableWord 16 0b01100_111_01000000 = some (.jmp 0x40#8) := by decide
theorem test_decode_jz : decodeTableWord 16 0b01101_100_000_01000 = some (.jz .r4 8#5) := by decide
theorem test_decode_jnz : decodeTableWord 16 0b01110_100_000_00100 = some (.jnz .r4 4#5) := by decide
theorem test_decode_call : decodeTableWord 16 0b01111_101_111_11111 = some (.call .r5) := by decide
theorem test_decode_in : decodeTableWord 16 0b10000_100_000_00010 = some (.inp .r4 2#5) := by decide
theorem test_decode_out : decodeTableWord 16 0b10001_000_100_00001 = some (.out 1#5 .r4) := by decide
theorem test_decode_halt : decodeTableWord 16 0b10010_111_111_11111 = some .halt := by decide
theorem test_decode_nop : decodeTableWord 16 0b10011_000_000_00000 = some .nop := by decide
theorem test_decode_reserved_first : decodeTableWord 16 0b10100_000_000_00000 = none := by decide
theorem test_decode_reserved_last : decodeTableWord 16 0b11111_111_111_11111 = none := by decide
/-- E6 under `UNUSED_FIELDS = fault`. -/
theorem test_decode_strict : decode .fault 0x6700#16 = .unusedFieldSet 0x6700#16 := by decide

/-! The assembler on the source's own lines (section 1.1 of the vectors). -/

theorem test_asm_add : assembleText .zero 0 "ADD R1, R2, 10    ; R1 = R2 + 10".toList = some [0x014A#16] := by decide
theorem test_asm_out : assembleText .zero 0 "OUT 0, R1".toList = some [0x8820#16] := by decide
theorem test_asm_ld_100 : assembleText .zero 0 "LD R1, [R2+100]".toList = none := by decide
/-- Assumption 14: no expressions. -/
theorem test_asm_expression : assembleText .zero 0 "ADD R1, R2, 2+3".toList = none ∧
    assembleText .zero 0 "x: LD R1, [R2+x]".toList = none ∧ assembleText .zero 0 "x: JMP x+2".toList = none := by decide
theorem test_asm_label : assembleText .zero 0 "NOP\nlabel: JZ R1, label".toList = some [0x9800#16, 0x6902#16] := by decide

/-! Single steps. -/

/-- A1 -/
theorem test_add_overflow : after 0x0141 (regs [(.r2, 0x7FFF#16)]) (fun t => (readReg .r1 t, t.flags))
    = some (0x8000#16, cvzn 0 1 0 1) := by decide
/-- A6 -/
theorem test_add_r0 : after 0x0041 (regs [(.r2, 0xFFFF#16)]) (fun t => (t.regs.r1, t.flags))
    = some (0x0000#16, cvzn 1 0 1 0) := by decide
/-- S1 -/
theorem test_sub_borrow : after 0x0B85 State.reset (fun t => (readReg .r3 t, t.flags))
    = some (0xFFFB#16, cvzn 1 0 0 1) := by decide
/-- S2 -/
theorem test_sub_overflow : after 0x0B81 (regs [(.r4, 0x8000#16)]) (fun t => (readReg .r3 t, t.flags))
    = some (0x7FFF#16, cvzn 0 1 0 0) := by decide
/-- M3 -/
theorem test_mul_65536 : after 0x1484 (regs [(.r4, 0x4000#16)]) (fun t => (readReg .r4 t, t.flags.v, t.flags.z))
    = some (0x0000#16, true, true) := by decide
/-- M4 -/
theorem test_mul_negative : after 0x14BF (regs [(.r5, 0xFFFF#16)]) (fun t => (readReg .r4 t, t.flags.v, t.flags.z))
    = some (0xFFE1#16, false, false) := by decide
/-- D1 -/
theorem test_div_toward_zero : after 0x1D82 (regs [(.r4, 0xFFF9#16)]) (fun t => (readReg .r5 t, t.flags.v))
    = some (0xFFFD#16, false) := by decide
/-- D8 -/
theorem test_div_by_zero : after 0x1D80 (regs [(.r4, 7#16), (.r5, 0xAAAA#16)]) (fun t => (readReg .r5 t, t.pc, t.run))
    = some (0xAAAA#16, 0x0000#16, .exception .divideByZero 0x0000#16) := by decide
/-- L1 -/
theorem test_and : after 0x27CF (regs [(.r6, 0xABCD#16)]) (readReg .r7) = some 0x000D#16 := by decide
/-- L4 -/
theorem test_or : after 0x2D91 (regs [(.r4, 0xAB00#16)]) (readReg .r5) = some 0xAB11#16 := by decide
/-- L6 -/
theorem test_xor : after 0x36DF (regs [(.r6, 0xFFFE#16)]) (readReg .r6) = some 0xFFE1#16 := by decide
/-- L10 -/
theorem test_not : after 0x395F (regs [(.r2, 0x00FF#16)]) (readReg .r1) = some 0xFF00#16 := by decide
/-- T1 -/
theorem test_ld : after 0x4682 (bytes [(0x82, 0xEF), (0x83, 0xBE)] (regs [(.r4, 0x0080#16)])) (readReg .r6)
    = some 0xBEEF#16 := by decide
/-- T5 -/
theorem test_ld_wraps : after 0x4684 (bytes [(2, 0x57), (3, 0x13)] (regs [(.r4, 0xFFFE#16)])) (readReg .r6)
    = some 0x1357#16 := by decide
/-- T2 -/
theorem test_st : after 0x4CA2 (regs [(.r4, 0x0080#16), (.r5, 0xFFFE#16)]) (fun t => (readByte 0x82#17 t, readByte 0x83#17 t))
    = some (0xFE#8, 0xFF#8) := by decide
/-- T4 -/
theorem test_st_odd : faultOf (step1 0x4CA3 (regs [(.r4, 0x0080#16), (.r5, 1#16)]))
    = some (.misalignedData 0x0000#16 0x0083#16) := by decide
/-- T9 -/
theorem test_ldi : after 0x55FE State.reset (readReg .r5) = some 0xFFFE#16 := by decide
/-- T14 -/
theorem test_lda : after 0x5C80 State.reset (readReg .r4) = some 0x0080#16 := by decide
/-- J1 -/
theorem test_jmp : after 0x6040 State.reset (fun t => t.pc) = some 0x0040#16 := by decide
/-- J3 -/
theorem test_jz_taken : after 0x6C08 State.reset (fun t => t.pc) = some 0x0008#16 := by decide
/-- J4 -/
theorem test_jz_not_taken : after 0x6C08 (regs [(.r4, 1#16)]) (fun t => t.pc) = some 0x0002#16 := by decide
/-- J6 -/
theorem test_jnz_not_taken : after 0x7404 State.reset (fun t => t.pc) = some 0x0002#16 := by decide
/-- J7 -/
theorem test_jnz_taken : after 0x7404 (regs [(.r4, 0x8000#16)]) (fun t => t.pc) = some 0x0004#16 := by decide
/-- K1 -/
theorem test_call : after 0x7D00 (regs [(.r5, 0x0010#16)]) (fun t => (readReg .r3 t, t.pc)) = some (0x0002#16, 0x0010#16) := by
  decide
/-- K2 -/
theorem test_call_r3 : after 0x7B00 (regs [(.r3, 0x0014#16)]) (fun t => (readReg .r3 t, t.pc)) = some (0x0002#16, 0x0014#16) := by
  decide
/-- O1 -/
theorem test_in : after 0x8400 { State.reset with env.keyboard := [0x0048#16] } (fun t => (readReg .r4 t, t.trace))
    = some (0x0048#16, [.input .keyboard 0x0048#16]) := by decide
/-- O7 -/
theorem test_in_held : after 0x8400 { State.reset with env.holds := [true] } (fun t => (t.pc, t.run, t.trace))
    = some (0x0000#16, .running, []) := by decide
/-- O3 -/
theorem test_out : after 0x8880 (regs [(.r4, 0x0041#16)]) (fun t => (t.pc, t.trace))
    = some (0x0002#16, [.output .console 0x0041#16]) := by decide
/-- O6 -/
theorem test_out_unknown : faultOf (step1 0x889F State.reset) = some (.unknownDevice 0x0000#16 31#5) := by decide
/-- O9 -/
theorem test_halt : after 0x97FF State.reset (fun t => (t.pc, t.run)) = some (0x0002#16, .halted) := by decide
/-- K6 -/
theorem test_nop_wraps : after 0x9800 { State.reset with pc := 0xFFFE#16 } (fun t => t.pc) = some 0x0000#16 := by decide
/-- E2 -/
theorem test_reserved : faultOf (step1 0xA000 State.reset) = some (.illegalInstruction 0x0000#16 0xA000#16) := by decide
/-- J2, its second step -/
theorem test_fetch_odd : faultOf (step { State.reset with pc := 0x00FF#16 }) = some (.misalignedFetch 0x00FF#16) := by decide
/-- Section 6: D7 under `RIMM_EXT = sign` is -32768 / -1. -/
theorem test_div_sign : after 0x1D9F { regs [(.r4, 0x8000#16)] with config.rimmExt := .sign }
    (fun t => (readReg .r5 t, t.flags.v)) = some (0x8000#16, true) := by decide
/-- Section 6: S1 under `SUB_CARRY = not_borrow`. -/
theorem test_sub_not_borrow : after 0x0B85 { State.reset with config.subCarry := .notBorrow } (fun t => t.flags.c)
    = some false := by decide
/-- Section 6: K6 under `PC_WRAP = fault`. -/
theorem test_nop_no_wrap : faultOf (step1 0x9800 { other with pc := 0xFFFE#16 }) = some (.pcWrap 0xFFFE#16) := by decide
/-- R238: how a run ends. -/
theorem test_run_end : (runEnd (step1 0x9000 State.reset), runEnd (step1 0x1800 State.reset), runEnd (step1 0x9800 State.reset),
    runEnd (step1 0xA000 State.reset)) = (.successful, .unsuccessful, .continues, .unsuccessful) := by decide

/-! Witnesses: for each statement of Obligations.lean that has hypotheses, a state and operands that meet all of them,
and for a statement of several clauses one for each, at the boundary. -/

/-- The top of the 16-bit space, where `npc` wraps to 0x0000 (R27). -/
def topState : State := { State.reset with pc := 0xFFFE#16 }

/-- `NpcDefined`: at the top with `PC_WRAP = wrap`, and at the last even address below it with `PC_WRAP = fault`. -/
theorem test_witness_NpcDefined : NpcDefined topState ∧ npcOf topState = 0x0000#16 ∧
    NpcDefined { other with pc := 0xFFFC#16 } ∧ ¬ NpcDefined { other with pc := 0xFFFE#16 } := by decide

theorem test_witness_StrictDecoderAcceptsCanonicalWordsOnly :
    decode .fault 0x7D00#16 = .instr (.call .r5) := by decide

theorem test_witness_SameInstrIffOnlyUnusedFieldsDiffer :
    decode .ignore 0x7DFF#16 = .instr (.call .r5) ∧ decode .ignore 0x7D00#16 = .instr (.call .r5) ∧
      decode .ignore 0x7C00#16 ≠ .instr (.call .r5) := by decide

/-- The last word that decodes, the first and the last that do not. -/
theorem test_witness_ReservedOpcodesStop :
    decode .fault 0x9FFF#16 ≠ .reservedOpcode 0x9FFF#16 ∧ decode .fault 0xA000#16 = .reservedOpcode 0xA000#16 ∧
    (State.reset.withFetchWord 16 0xA000).run = .running ∧
    readWord (physical 0#16) (State.reset.withFetchWord 16 0xA000) = some 0xA000#16 ∧
    readWord (physical 0#16) (State.reset.withFetchWord 16 0xFFFF) = some 0xFFFF#16 := by decide

/-- Both ends of each range, and the first value outside it. -/
theorem test_witness_AssemblerEnforcesRanges :
    (assemble .zero ⟨.add, [.reg 7, .reg 0, .imm 31]⟩).isSome = true ∧
    (assemble .zero ⟨.ld, [.reg 7, .mem 7 31]⟩).isSome = true ∧ (assemble .zero ⟨.st, [.mem 7 32, .reg 0]⟩) = none ∧
    (assemble .zero ⟨.ldi, [.reg 0, .imm (-128)]⟩).isSome = true ∧ (assemble .zero ⟨.lda, [.reg 0, .imm (-1)]⟩) = none ∧
    (assemble .zero ⟨.jmp, [.imm 255]⟩).isSome = true ∧ (assemble .zero ⟨.jnz, [.reg 0, .imm 32]⟩) = none ∧
    (assemble .zero ⟨.out, [.imm 31, .reg 7]⟩).isSome = true := by decide

theorem test_witness_AddRule : 0x0145#16 &&& 0xF800#16 = 0x0000#16 ∧ NpcDefined topState := by decide

/-- Each polarity of C. -/
theorem test_witness_SubRule : 0x0B85#16 &&& 0xF800#16 = 0x0800#16 ∧ NpcDefined topState ∧
    topState.config.subCarry = .borrow ∧ NpcDefined other ∧ other.config.subCarry = .notBorrow := by decide

theorem test_witness_MulRule : 0x14BF#16 &&& 0xF800#16 = 0x1000#16 ∧ NpcDefined topState := by decide

/-- A zero divisor, and the divisors next to it, under either extension. -/
theorem test_witness_DivRule : 0x1D82#16 &&& 0xF800#16 = 0x1800#16 ∧ NpcDefined topState ∧
    topState.config.rimmExt = .zero ∧ (regImm .zero 0#5).toInt = 0 ∧ (regImm .zero 1#5).toInt = 1 ∧
    NpcDefined other ∧ other.config.rimmExt = .sign ∧ (regImm .sign 0#5).toInt = 0 ∧ (regImm .sign 31#5).toInt = -1 := by
  decide

/-- A divisor of each sign, a dividend of each sign, and the one overflow. -/
theorem test_witness_DivisionLaw : (0x8000#16 : Word) ≠ 0#16 ∧ s16 0x8000#16 = -32768 ∧ s16 0xFFFF#16 = -1 ∧
    0 ≤ s16 0x0000#16 ∧ 0 < s16 0x0001#16 ∧ s16 0x0000#16 ≤ 0 ∧ s16 0xFFFF#16 < 0 := by decide

theorem test_witness_AndOrXorRule : 0x27CF#16 &&& 0xF800#16 = 0x2000#16 ∧ 0x2D91#16 &&& 0xF800#16 = 0x2800#16 ∧
    0x36DF#16 &&& 0xF800#16 = 0x3000#16 ∧ NpcDefined topState ∧ topState.config.rimmExt = .zero ∧ Reg.r5 ≠ .r0 := by
  decide

theorem test_witness_NotRule : 0x395F#16 &&& 0xF800#16 = 0x3800#16 ∧ NpcDefined State.reset ∧ Reg.r1 ≠ .r0 ∧
    ∃ t t', exec (.not .r1 .r2) State.reset = .next t ∧ exec (.not .r4 .r1) t = .next t' :=
  ⟨by decide, by decide, by decide, _, _, rfl, rfl⟩

/-- An even address, at the end of the reachable and of the whole memory; an odd one where that is a fault; and the
two byte orders. -/
theorem test_witness_WordAccessPrimitives : (0x1FFFE#17 : Addr).toNat % 2 = 0 ∧ (0x0FFFF#17 : Addr).toNat % 2 = 1 ∧
    State.reset.config.misaligned = .fault ∧ State.reset.config.byteOrder = .little ∧ other.config.byteOrder = .big := by
  decide

/-- An even address; an odd one where it is split; an odd one where it is a fault. -/
theorem test_witness_LdRule : 0x4682#16 &&& 0xF800#16 = 0x4000#16 ∧
    Accessible (physical (dataAddress .r0 30#5 State.reset)) State.reset ∧ NpcDefined State.reset ∧
    Accessible (physical (dataAddress .r0 31#5 other)) other ∧ NpcDefined other ∧
    ¬ Accessible (physical (dataAddress .r0 31#5 State.reset)) State.reset := by decide

theorem test_witness_StRule : 0x4CA2#16 &&& 0xF800#16 = 0x4800#16 ∧
    Accessible (physical (dataAddress .r0 30#5 State.reset)) State.reset ∧ NpcDefined State.reset ∧
    Accessible (physical (dataAddress .r0 31#5 other)) other ∧ NpcDefined other ∧
    ¬ Accessible (physical (dataAddress .r0 31#5 State.reset)) State.reset := by decide

theorem test_witness_LdiLdaRule : 0x55FE#16 &&& 0xF800#16 = 0x5000#16 ∧ 0x5C80#16 &&& 0xF800#16 = 0x5800#16 ∧
    NpcDefined topState := by decide

/-- The same base and offset, and another base and offset that give the same address. -/
theorem test_witness_LoadReturnsMostRecentStore :
    (∃ t t', exec (.st .r4 .r5 2#5) (regs [(.r5, 0xFFFE#16)]) = .next t ∧
      dataAddress .r4 2#5 t = dataAddress .r4 2#5 (regs [(.r5, 0xFFFE#16)]) ∧ exec (.ld .r6 .r4 2#5) t = .next t') ∧
    ∃ t t', exec (.st .r4 .r5 2#5) (regs [(.r5, 0xFFFE#16)]) = .next t ∧
      dataAddress .r5 4#5 t = dataAddress .r4 2#5 (regs [(.r5, 0xFFFE#16)]) ∧ exec (.ld .r6 .r5 4#5) t = .next t' :=
  ⟨⟨_, _, rfl, by decide, rfl⟩, _, _, rfl, by decide, rfl⟩

theorem test_witness_StoreSeenByNextFetch : ∃ t, exec (.st .r4 .r5 2#5) (regs [(.r5, 0x9800#16)]) = .next t ∧
    dataAddress .r4 2#5 (regs [(.r5, 0x9800#16)]) = t.pc := ⟨_, rfl, by decide⟩

theorem test_witness_OnlyStoreChangesMemory : (∃ t, exec (.call .r5) State.reset = .next t) ∧
    ∀ rd rs imm5, Instr.call .r5 ≠ .st rd rs imm5 := ⟨⟨_, rfl⟩, by intros; simp⟩

theorem test_witness_JmpRule : 0x6740#16 &&& 0xF800#16 = 0x6000#16 := by decide

/-- Taken with a register of 0, not taken with the register values next to it. -/
theorem test_witness_JzJnzRule : 0x6C08#16 &&& 0xF800#16 = 0x6800#16 ∧ 0x7404#16 &&& 0xF800#16 = 0x7000#16 ∧
    readReg .r4 topState = 0x0000#16 ∧ NpcDefined topState ∧
    readReg .r4 (regs [(.r4, 0xFFFF#16)]) ≠ 0x0000#16 ∧ NpcDefined (regs [(.r4, 0xFFFF#16)]) := by decide

theorem test_witness_CallRule : 0x7DFF#16 &&& 0xF800#16 = 0x7800#16 ∧ NpcDefined topState := by decide

/-- The called subroutine is a CALL R3 itself. -/
theorem test_witness_CallR3ReturnsAfterTheCall : ∃ t u', exec (.call .r5) (regs [(.r5, 0x0010#16)]) = .next t ∧
    exec (.call .r3) t = .next u' := ⟨_, _, rfl, rfl⟩

/-- The first unknown and the last known number; an input that the environment supplies and one that is free. -/
theorem test_witness_InRule : 0x8400#16 &&& 0xF800#16 = 0x8000#16 ∧ 2 < (3#5).toNat ∧ ¬ 2 < (2#5).toNat ∧
    accessHeld { State.reset.env with random := [0x1234#16] } = false ∧
    supplied .random { State.reset.env with random := [0x1234#16] } = [0x1234#16] ∧
    accessHeld State.reset.env = false ∧ supplied .random State.reset.env = [] ∧ NpcDefined State.reset := by decide

theorem test_witness_OutRule : 0x8880#16 &&& 0xF800#16 = 0x8800#16 ∧ 2 < (3#5).toNat ∧ ¬ 2 < (2#5).toNat ∧
    accessHeld State.reset.env = false ∧ NpcDefined State.reset := by decide

/-- An attempt held by the list of answers, one held by what comes after it, and a run of two held steps. -/
theorem test_witness_HeldAccessIsOfferedAgain : usesKnownDevice (.out 2#5 .r4) = true ∧
    usesKnownDevice (.inp .r4 2#5) = true ∧ accessHeld { State.reset.env with holds := [true] } = true ∧
    accessHeld { State.reset.env with holdsRest := true } = true ∧
    (({ State.reset with env.holds := [true, true, false] } : State).withFetchWord 16 0x8402).run = .running ∧
    readWord (physical 0#16) (({ State.reset with env.holds := [true, true, false] } : State).withFetchWord 16 0x8402)
      = some 0x8402#16 ∧
    decode .ignore 0x8402#16 = .instr (.inp .r4 2#5) ∧
    (({ State.reset with env.holds := [true, true, false] } : State).withFetchWord 16 0x8402).env.holds
      = List.replicate 2 true ++ [false] := by decide

/-- An instruction of each of the three cases. -/
theorem test_witness_TraceGrowsByOneEventAtTheEnd : (∃ t, exec .nop State.reset = .next t) ∧
    (∃ t, exec (.inp .r0 2#5) State.reset = .next t) ∧ (∃ t, exec (.out 2#5 .r4) State.reset = .next t) :=
  ⟨⟨_, rfl⟩, ⟨_, rfl⟩, ⟨_, rfl⟩⟩

theorem test_witness_HaltRule : 0x97FF#16 &&& 0xF800#16 = 0x9000#16 ∧ NpcDefined topState ∧
    ∃ t, exec .halt topState = .next t := ⟨by decide, by decide, _, rfl⟩

theorem test_witness_NopRule : 0x9FFF#16 &&& 0xF800#16 = 0x9800#16 ∧ NpcDefined topState := by decide

/-- Both ways of having stopped. -/
theorem test_witness_StoppedMachineNeverChanges : ({ State.reset with run := .halted } : State).run ≠ .running ∧
    ({ State.reset with run := .exception .divideByZero 0#16 } : State).run ≠ .running := by decide

/-- A DIV that raises, a HALT, and a NOP. -/
theorem test_witness_OnlyDivByZeroRaisesAndOnlyHaltHalts : State.reset.run = .running ∧
    (∃ t, exec (.div .r5 .r4 0#5) State.reset = .next t ∧ t.run = .exception .divideByZero 0#16) ∧
    (∃ t, exec .halt State.reset = .next t) ∧ (∃ t, exec (.div .r5 .r4 1#5) State.reset = .next t) :=
  ⟨rfl, ⟨_, rfl, rfl⟩, ⟨_, rfl⟩, ⟨_, rfl⟩⟩

theorem test_witness_DivideByZeroEntry : (State.reset.withFetchWord 16 0x1D80).run = .running ∧
    fetch (State.reset.withFetchWord 16 0x1D80) = .ok 0x1D80#16 ∧
    decode .ignore 0x1D80#16 = .instr (.div .r5 .r4 0#5) := ⟨rfl, rfl, rfl⟩

theorem test_witness_StepRunsDecodedInstruction : (State.reset.withFetchWord 16 0x7DFF).run = .running ∧
    readWord (physical 0#16) (State.reset.withFetchWord 16 0x7DFF) = some 0x7DFF#16 ∧
    decode .ignore 0x7DFF#16 = .instr (.call .r5) := by decide

/-- The last odd and the last even pc, and the two byte orders. -/
theorem test_witness_FetchRule : (0xFFFF#16 : Word).toNat % 2 = 1 ∧ topState.config.misaligned = .fault ∧
    topState.pc.toNat % 2 = 0 ∧ topState.config.byteOrder = .little ∧ other.pc.toNat % 2 = 0 ∧
    other.config.byteOrder = .big := by decide

/-- A word for each check of the order: reserved, DIV with zero, LD and ST at an odd address, IN and OUT with 3. -/
theorem test_witness_StepChecksInOrder : State.reset.run = .running ∧ State.reset.config.misaligned = .fault ∧
    (0x00FF#16 : Word).toNat % 2 = 1 ∧ fetch (State.reset.withFetchWord 16 0xA000) = .ok 0xA000#16 ∧
    0x14 ≤ (opField 0xA000#16).toNat ∧ decode .ignore 0x1D80#16 = .instr (.div .r5 .r4 0#5) ∧
    fetch (State.reset.withFetchWord 16 0x4681) = .ok 0x4681#16 ∧ decode .ignore 0x4681#16 = .instr (.ld .r6 .r4 1#5) ∧
    (dataAddress .r4 1#5 State.reset).toNat % 2 = 1 ∧ decode .ignore 0x4CA3#16 = .instr (.st .r4 .r5 3#5) ∧
    decode .ignore 0x8403#16 = .instr (.inp .r4 3#5) ∧ decode .ignore 0x8883#16 = .instr (.out 3#5 .r4) :=
  ⟨rfl, rfl, by decide, rfl, by decide, rfl, rfl, rfl, by decide, rfl, rfl, rfl⟩

/-- An instruction that goes on, one that is held, one that raises. -/
theorem test_witness_OnlyTransfersWriteAnotherPc : transfersControl .nop = false ∧
    (∃ t, exec .nop topState = .next t) ∧ transfersControl (.inp .r4 0#5) = false ∧
    (∃ t, exec (.inp .r4 0#5) { State.reset with env.holds := [true] } = .next t) ∧
    transfersControl (.div .r5 .r4 0#5) = false ∧ ∃ t, exec (.div .r5 .r4 0#5) State.reset = .next t :=
  ⟨rfl, ⟨_, rfl⟩, rfl, ⟨_, rfl⟩, rfl, _, rfl⟩

/-- The hypotheses of NoNextAddressStops together. -/
def NoNextHypotheses (i : Instr) (s : State) : Prop :=
  ¬ NpcDefined s ∧ (∀ imm8, i ≠ .jmp imm8) ∧
    (∀ rd imm5, i = .jz rd imm5 → readReg rd s ≠ 0x0000#16) ∧ (∀ rd imm5, i = .jnz rd imm5 → readReg rd s = 0x0000#16) ∧
    (∀ rd dev, i = .inp rd dev → dev.toNat ≤ 2 ∧ accessHeld s.env = false) ∧
    (∀ dev rs, i = .out dev rs → dev.toNat ≤ 2 ∧ accessHeld s.env = false) ∧ (∀ rd rs, i ≠ .div rd rs 0#5) ∧
    (∀ rd rs imm5, i = .ld rd rs imm5 → Accessible (physical (dataAddress rs imm5 s)) s) ∧
    (∀ rd rs imm5, i = .st rd rs imm5 → Accessible (physical (dataAddress rd imm5 s)) s)

/-- The top of the 16-bit space with `PC_WRAP = fault`, R5 not zero. -/
def otherTop : State := { regs [(.r5, 1#16)] with pc := 0xFFFE#16, config := otherConfig }

/-- HALT, CALL, a JZ and a JNZ that are not taken, IN and OUT of device 2 with no hold, DIV with the immediate next to 0,
LD and ST at an odd address that is split. -/
theorem test_witness_NoNextAddressStops : NoNextHypotheses .halt otherTop ∧ NoNextHypotheses (.call .r5) otherTop ∧
    NoNextHypotheses (.jz .r5 8#5) otherTop ∧ NoNextHypotheses (.jnz .r4 8#5) otherTop ∧
    NoNextHypotheses (.inp .r4 2#5) otherTop ∧ NoNextHypotheses (.out 2#5 .r4) otherTop ∧
    NoNextHypotheses (.div .r1 .r2 1#5) otherTop ∧ NoNextHypotheses (.ld .r6 .r4 1#5) otherTop ∧
    NoNextHypotheses (.st .r4 .r6 1#5) otherTop := by
  have hn : ¬ NpcDefined otherTop := by decide
  have h5 : readReg .r5 otherTop ≠ 0x0000#16 := by decide
  have h4 : readReg .r4 otherTop = 0x0000#16 := by decide
  have he : accessHeld otherTop.env = false := by decide
  have ha : Accessible (physical (dataAddress .r4 1#5 otherTop)) otherTop := by decide
  have hd : (2#5).toNat ≤ 2 := by decide
  have h1 : (1#5 : BitVec 5) ≠ 0#5 := by decide
  refine ⟨?_, ?_, ?_, ?_, ?_, ?_, ?_, ?_, ?_⟩ <;>
    refine ⟨hn, fun _ h => ?_, fun _ _ h => ?_, fun _ _ h => ?_, fun _ _ h => ?_, fun _ _ h => ?_, fun _ _ h => ?_,
      fun _ _ _ h => ?_, fun _ _ _ h => ?_⟩ <;>
    injection h <;> subst_vars <;> first | exact h5 | exact h4 | exact ⟨hd, he⟩ | exact ha | exact h1 ‹_›

/-- HALT at the top (D12: "`fault` at 0xFFFE"). -/
theorem test_halt_no_wrap : faultOf (exec .halt otherTop) = some (.pcWrap 0xFFFE#16) := by decide

/-- An even pc, and an odd one where the access is split. -/
theorem test_witness_PlacedWordIsFetched : Accessible (physical topState.pc) topState ∧
    Accessible (physical 0xFFFF#16) { other with pc := 0xFFFF#16 } := by decide

theorem test_witness_WritesOnlyTheTableRegisters : ∃ t, exec (.call .r5) State.reset = .next t := ⟨_, rfl⟩

/-- R5 is written and not read; the two states differ there. -/
theorem test_witness_ReadsOnlyTheTableRegisters : Reg.r5 ∉ registersRead (.add .r1 .r2 5#5) ∧
    AgreeButReg .r5 State.reset (regs [(.r5, 0xAAAA#16)]) ∧ readReg .r5 (regs [(.r5, 0xAAAA#16)]) ≠ readReg .r5 State.reset := by
  refine ⟨by decide, ⟨?_, rfl, rfl, rfl, rfl, rfl, rfl, rfl⟩, by decide⟩
  intro r h
  cases r <;> first | rfl | simp at h

theorem test_witness_FlagsWrittenOnlyByArithmetic : (∃ t, exec .nop State.reset = .next t) ∧ writesFlags .nop = false ∧
    (∃ t, exec (.mul .r1 .r2 3#5) State.reset = .next t) ∧ (∃ t, exec (.div .r1 .r2 3#5) State.reset = .next t) ∧
    (∃ t, exec (.div .r1 .r2 0#5) State.reset = .next t) ∧
    ∃ t t0, exec (.add .r1 .r2 3#5) State.reset = .next t ∧ exec (.add .r0 .r2 3#5) State.reset = .next t0 :=
  ⟨⟨_, rfl⟩, rfl, ⟨_, rfl⟩, ⟨_, rfl⟩, ⟨_, rfl⟩, _, _, rfl, rfl⟩

/-- All four flags differ. -/
theorem test_witness_FlagsAreNeverObserved : AgreeButFlags (State.reset.withFetchWord 16 0x6C08)
    { State.reset.withFetchWord 16 0x6C08 with flags := cvzn 1 1 1 1 } := ⟨rfl, rfl, rfl, rfl, rfl, rfl, rfl⟩

/-- An image that wraps around the end of memory. -/
theorem test_witness_BootPlacesTheImageAndStartsAtZero : [0x00#8, 0x98#8, 0x00#8, 0x90#8].length ≤ 131072 ∧
    readByte 0x1FFFF#17 (boot 0x1FFFE#17 [0x11#8, 0x22#8, 0x00#8, 0x90#8] State.reset) = 0x22#8 ∧
    readByte 0x00001#17 (boot 0x1FFFE#17 [0x11#8, 0x22#8, 0x00#8, 0x90#8] State.reset) = 0x90#8 := by decide

/-- The invariant in each run state, the last two reached by a step from the first. -/
theorem test_witness_StepKeepsTheInvariant :
    (State.reset.withFetchWord 16 0x1D80).Inv ∧ (∃ t, step1 0x1D80 State.reset = .next t ∧ t.Inv ∧ t.run ≠ .running) ∧
    ∃ t, step1 0x9000 State.reset = .next t ∧ t.Inv ∧ t.run = .halted := by
  refine ⟨⟨by decide, ?_, ?_⟩, ⟨_, rfl, ⟨by decide, ?_, ?_⟩, by decide⟩, ⟨_, rfl, ⟨by decide, ?_, ?_⟩, rfl⟩⟩
  · intro c a h
    exact RunState.noConfusion h
  · intro h
    exact absurd h (by decide)
  · intro c a h
    injection h with hc ha
    subst ha
    exact ⟨rfl, .r5, .r4, 0x1D80#16, rfl, rfl⟩
  · intro h
    exact absurd h (by decide)
  · intro c a h
    exact RunState.noConfusion h
  · intro _
    exact ⟨0x9000#16, rfl, rfl⟩

theorem test_witness_StepKeepsTheParameters : ∃ t, step { other with run := .halted } = .next t := ⟨_, rfl⟩

/-- Two states that differ at 0x10000 only. -/
theorem test_witness_UpperMemoryIsOutOfReach : State.reset.config.misaligned = .fault ∧
    AgreeBelow64K (bytes [(0x10000, 1)] (State.reset.withFetchWord 16 0x4CA2))
      (bytes [(0x10000, 2)] (State.reset.withFetchWord 16 0x4CA2)) ∧
    ∃ t, step (bytes [(0x10000, 1)] (State.reset.withFetchWord 16 0x4CA2)) = .next t := by
  refine ⟨rfl, ⟨rfl, rfl, rfl, rfl, rfl, rfl, rfl, ?_⟩, _, rfl⟩
  intro a ha
  have hne : a ≠ BitVec.ofNat 17 0x10000 := by
    intro h
    subst h
    exact absurd ha (by decide)
  simp [bytes, readByte_writeByte, hne]

/-- A NOP with unused bits set, and the canonical one. -/
theorem test_witness_UnusedFieldSetStops : (other.withFetchWord 16 0x9FFF).run = .running ∧
    (other.withFetchWord 16 0x9FFF).config.unusedFields = .fault ∧ fetch (other.withFetchWord 16 0x9FFF) = .ok 0x9FFF#16 ∧
    decode .ignore 0x9FFF#16 = .instr .nop ∧ 0x9FFF#16 ≠ encode .nop ∧
    fetch (other.withFetchWord 16 0x9800) = .ok 0x9800#16 ∧ 0x9800#16 = encode .nop :=
  ⟨rfl, rfl, rfl, rfl, by decide, rfl, rfl⟩

/-- The last odd pc, in either byte order. -/
theorem test_witness_SplitFetchRule : other.config.misaligned = .split ∧ (0xFFFF#16 : Word).toNat % 2 = 1 ∧
    other.config.byteOrder = .big ∧
    ({ otherConfig with byteOrder := .little } : Config).misaligned = .split := by decide

/-! The two machines of opposite byte order: every byte of memory listed, since what an unlisted one reads as is free. -/

/-- Memory with every byte listed. -/
def filled (lo : Nat) (f : Nat → Byte) : Nat → Memory
  | 0 => []
  | n + 1 => (lo, f lo) :: filled (lo + 1) f n

theorem lookupCell_filled (f : Nat → Byte) (a : Nat) : ∀ (n lo : Nat), lo ≤ a → a < lo + n →
    lookupCell (filled lo f n) a = some (f a) := by
  intro n
  induction n with
  | zero =>
    intro lo h1 h2
    omega
  | succ n ih =>
    intro lo h1 h2
    by_cases h : lo = a
    · simp [filled, lookupCell, h]
    · simp only [filled, lookupCell, h, if_false]
      exact ih (lo + 1) (by omega) (by omega)

theorem readByte_filled (f : Nat → Byte) (a : Addr) (s : State) :
    readByte a { s with mem := filled 0 f memBytes } = f a.toNat := by
  have h := lookupCell_filled f a.toNat memBytes 0 (Nat.zero_le _) (by have := a.isLt; simp [memBytes]; omega)
  simp [readByte, h]

/-- One byte at every even address, another at every odd one. -/
def wordsOfMemory (even odd : Byte) : Memory := filled 0 (fun k => if k % 2 = 0 then even else odd) memBytes

theorem test_witness_ByteOrderIsNotObservable :
    ByteOrderMirror { State.reset with mem := wordsOfMemory 0xFE#8 0x55#8 }
      { State.reset with mem := wordsOfMemory 0x55#8 0xFE#8, config.byteOrder := .big } := by
  refine ⟨rfl, rfl, rfl, rfl, rfl, rfl, rfl, rfl, rfl, ?_⟩
  intro a
  have hx : (a ^^^ 1#17).toNat % 2 = 1 - a.toNat % 2 := by
    have h : (a ^^^ 1#17).toNat = a.toNat ^^^ 1 := BitVec.toNat_xor a 1#17
    rw [h, Nat.xor_mod_two_eq]
    omega
  rw [wordsOfMemory, wordsOfMemory, readByte_filled _ a { State.reset with config.byteOrder := .big },
    readByte_filled _ (a ^^^ 1#17) State.reset, hx]
  rcases Nat.mod_two_eq_zero_or_one a.toNat with h | h <;> simp [h]

end Sys2Proof.Tests
end

/-! Proofs of the statements about the scope of the model (00_scope.md): what no instruction changes (R5, R14, R56), the
register primitives (R8, R21), and the stop where there is no next address (R5, R27). -/

namespace Sys2Proof.Machine

variable {s t : State}

/-! What every instruction keeps. -/

/-- Once for every instruction: the next state has the same parameters, and the same memory but after ST. -/
theorem exec_keeps_config_and_mem {i : Instr} (h : exec i s = .next t) :
    t.config = s.config ∧ (t.mem = s.mem ∨ ∃ rd rs imm5, i = .st rd rs imm5) := by
  cases i with
  | add rd rs v => obtain ⟨-, rfl⟩ := execAdd_eq_next.mp h; exact ⟨rfl, .inl rfl⟩
  | sub rd rs v => obtain ⟨-, rfl⟩ := execSub_eq_next.mp h; exact ⟨rfl, .inl rfl⟩
  | mul rd rs v => obtain ⟨-, rfl⟩ := execMul_eq_next.mp h; exact ⟨rfl, .inl rfl⟩
  | div rd rs v => obtain ⟨-, rfl⟩ | ⟨-, -, rfl⟩ := execDiv_eq_next.mp h <;> exact ⟨rfl, .inl rfl⟩
  | and rd rs v => obtain ⟨-, rfl⟩ := execAnd_eq_next.mp h; exact ⟨rfl, .inl rfl⟩
  | or rd rs v => obtain ⟨-, rfl⟩ := execOr_eq_next.mp h; exact ⟨rfl, .inl rfl⟩
  | xor rd rs v => obtain ⟨-, rfl⟩ := execXor_eq_next.mp h; exact ⟨rfl, .inl rfl⟩
  | not rd rs => obtain ⟨-, rfl⟩ := execNot_eq_next.mp h; exact ⟨rfl, .inl rfl⟩
  | ld rd rs v => obtain ⟨-, w, -, rfl⟩ := execLd_eq_next.mp h; exact ⟨rfl, .inl rfl⟩
  | st rd rs v => obtain ⟨-, -, rfl⟩ := execSt_eq_next.mp h; exact ⟨rfl, .inr ⟨rd, rs, v, rfl⟩⟩
  | ldi rd v => obtain ⟨-, rfl⟩ := execLdi_eq_next.mp h; exact ⟨rfl, .inl rfl⟩
  | lda rd v => obtain ⟨-, rfl⟩ := execLda_eq_next.mp h; exact ⟨rfl, .inl rfl⟩
  | jmp v => obtain rfl := execJmp_eq_next.mp h; exact ⟨rfl, .inl rfl⟩
  | jz rd v => obtain ⟨-, rfl⟩ | ⟨-, -, rfl⟩ := execJz_eq_next.mp h <;> exact ⟨rfl, .inl rfl⟩
  | jnz rd v => obtain ⟨-, rfl⟩ | ⟨-, -, rfl⟩ := execJnz_eq_next.mp h <;> exact ⟨rfl, .inl rfl⟩
  | call rd => obtain ⟨-, rfl⟩ := execCall_eq_next.mp h; exact ⟨rfl, .inl rfl⟩
  | inp rd dev =>
    obtain ⟨d, -, ⟨-, rfl⟩ | ⟨-, -, rfl⟩⟩ := execIn_eq_next.mp h <;> exact ⟨rfl, .inl rfl⟩
  | out dev rs =>
    obtain ⟨d, -, ⟨-, rfl⟩ | ⟨-, -, rfl⟩⟩ := execOut_eq_next.mp h <;> exact ⟨rfl, .inl rfl⟩
  | halt => obtain ⟨-, rfl⟩ := execHalt_eq_next.mp h; exact ⟨rfl, .inl rfl⟩
  | nop => obtain ⟨-, rfl⟩ := execNop_eq_next.mp h; exact ⟨rfl, .inl rfl⟩

theorem exec_keeps_config {i : Instr} (h : exec i s = .next t) : t.config = s.config :=
  (exec_keeps_config_and_mem h).1

theorem exec_keeps_mem {i : Instr} (h : exec i s = .next t) (hi : ∀ rd rs imm5, i ≠ .st rd rs imm5) :
    t.mem = s.mem :=
  (exec_keeps_config_and_mem h).2.resolve_right fun ⟨rd, rs, imm5, e⟩ => hi rd rs imm5 e

/-- Settles O43, by the rules of the register file. -/
theorem registerReadAfterWrite : Obligations.RegisterReadAfterWrite :=
  fun q r v s => ⟨readReg_writeReg q r v s, readReg_r0 s, writeReg_r0 v s⟩

/-- Settles O23: an instruction other than ST leaves the list of written bytes as it is. -/
theorem onlyStoreChangesMemory : Obligations.OnlyStoreChangesMemory :=
  fun _ _ _ h hi a => readByte_of_mem_eq (exec_keeps_mem h hi) a

/-- Settles O52: a stopped machine steps to itself, a running one by an instruction, and those keep the parameters. -/
theorem stepKeepsTheParameters : Obligations.StepKeepsTheParameters := by
  intro s t h
  obtain ⟨-, rfl⟩ | ⟨-, w, i, -, -, hi⟩ := step_eq_next.mp h
  · rfl
  · exact exec_keeps_config hi

/-! The instructions with several endings, where they end by `pc <- npc`: the state they give to `advance`. -/

theorem inputDevice_eq_some {dev : BitVec 5} (h : dev.toNat ≤ 2) : ∃ d, inputDevice dev = some d := by
  unfold inputDevice
  interval_cases dev.toNat <;> exact ⟨_, rfl⟩

theorem outputDevice_eq_some {dev : BitVec 5} (h : dev.toNat ≤ 2) : ∃ d, outputDevice dev = some d := by
  unfold outputDevice
  interval_cases dev.toNat <;> exact ⟨_, rfl⟩

theorem execDiv_of_ne_zero {imm5 : BitVec 5} (h : imm5 ≠ 0#5) (rd rs : Reg) :
    execDiv rd rs imm5 s = advance (setFlags (divFlags (readReg rs s) (regImm s.config.rimmExt imm5) s.flags)
      (writeReg rd (divResult (readReg rs s) (regImm s.config.rimmExt imm5)) s)) :=
  if_neg (mt (regImm_eq_zero_iff _ _).mp h)

theorem execLd_of_accessible {rs : Reg} {imm5 : BitVec 5}
    (h : Accessible (physical (dataAddress rs imm5 s)) s) (rd : Reg) :
    ∃ v, readWord (physical (dataAddress rs imm5 s)) s = some v ∧
      execLd rd rs imm5 s = advance (writeReg rd v s) := by
  have hv := readWord_eq_some.mpr ⟨accessAllowed_of_accessible h, rfl⟩
  exact ⟨_, hv, by simp only [execLd, hv]⟩

theorem execSt_of_accessible {rd : Reg} {imm5 : BitVec 5}
    (h : Accessible (physical (dataAddress rd imm5 s)) s) (rs : Reg) :
    execSt rd rs imm5 s = advance (storeWord (physical (dataAddress rd imm5 s)) (readReg rs s) s) := by
  have hw := writeWord_eq_some (v := readReg rs s).mpr ⟨accessAllowed_of_accessible h, rfl⟩
  simp only [execSt, hw]

theorem execIn_of_available {dev : BitVec 5} (hd : dev.toNat ≤ 2) (ha : accessHeld s.env = false) (rd : Reg) :
    ∃ d, inputDevice dev = some d ∧
      execIn rd dev s = advance (writeReg rd (devReadValue d s.env) (afterDevRead d s)) := by
  obtain ⟨d, e⟩ := inputDevice_eq_some hd
  exact ⟨d, e, by simp [execIn, e, ha]⟩

theorem execOut_of_available {dev : BitVec 5} (hd : dev.toNat ≤ 2) (ha : accessHeld s.env = false) (rs : Reg) :
    ∃ d, outputDevice dev = some d ∧ execOut dev rs s = advance (afterDevWrite d (readReg rs s) s) := by
  obtain ⟨d, e⟩ := outputDevice_eq_some hd
  exact ⟨d, e, by simp [execOut, e, ha]⟩

/-! No next address (R5, R27; U10). -/

/-- With no next address, an instruction that ends by `pc <- npc` stops, whatever it has computed before. -/
theorem advance_updated_of_not_npcDefined {u : State} (hn : ¬ NpcDefined s) (hp : u.pc = s.pc)
    (hc : u.config = s.config) : advance u = .fault (.pcWrap s.pc) := by
  refine advance_eq_fault.mpr ⟨?_, by rw [hp]⟩
  simpa only [NpcDefined, hp, hc] using hn

theorem execCall_of_not_npcDefined (hn : ¬ NpcDefined s) (rd : Reg) :
    execCall rd s = .fault (.pcWrap s.pc) := by
  simp only [execCall, nextPc_eq_none.mpr hn]

/-- Settles O41: apart from CALL, each instruction that the hypotheses leave ends by `pc <- npc` from a state with the
same pc and parameters. -/
theorem noNextAddressStops : Obligations.NoNextAddressStops := by
  intro i s hn hJmp hJz hJnz hIn hOut hDiv hLd hSt
  have stops {u : State} : u.pc = s.pc → u.config = s.config → advance u = .fault (.pcWrap s.pc) :=
    advance_updated_of_not_npcDefined hn
  cases i with
  | add | sub | mul | and | or | xor | not | ldi | lda | halt | nop => exact stops rfl rfl
  | div rd rs v =>
    have hv : v ≠ 0#5 := fun e => hDiv rd rs (by rw [e])
    exact (execDiv_of_ne_zero hv rd rs).trans (stops rfl rfl)
  | ld rd rs v =>
    obtain ⟨w, -, e⟩ := execLd_of_accessible (hLd rd rs v rfl) rd
    exact e.trans (stops rfl rfl)
  | st rd rs v => exact (execSt_of_accessible (hSt rd rs v rfl) rs).trans (stops rfl rfl)
  | jmp v => exact absurd rfl (hJmp v)
  | jz rd v => exact (if_neg (hJz rd v rfl)).trans (stops rfl rfl)
  | jnz rd v => exact (if_neg (not_not_intro (hJnz rd v rfl))).trans (stops rfl rfl)
  | call rd => exact execCall_of_not_npcDefined hn rd
  | inp rd dev =>
    obtain ⟨hd, ha⟩ := hIn rd dev rfl
    obtain ⟨d, -, e⟩ := execIn_of_available hd ha rd
    exact e.trans (stops rfl rfl)
  | out dev rs =>
    obtain ⟨hd, ha⟩ := hOut dev rs rfl
    obtain ⟨d, -, e⟩ := execOut_of_available hd ha rs
    exact e.trans (stops rfl rfl)

end Sys2Proof.Machine

/-! Proofs of the statements about the state (10_state.md): which registers, flags and pc an instruction writes (R23, R26,
R28, R31), which registers it reads (R23), the flags as unobservable (R30), and reset (R40). -/

namespace Sys2Proof.Machine

variable {s s' t : State} {r : Reg}

/-! What an instruction may write. -/

theorem sameRegsBut_writeReg (rd : Reg) (v : Word) (s : State) : SameRegsBut [rd] s (writeReg rd v s) :=
  fun _ hq => readReg_writeReg_other (List.ne_of_not_mem_cons hq) v s

theorem toNat_le_two_of_inputDevice {dev : BitVec 5} {d : InputDevice} (h : inputDevice dev = some d) :
    dev.toNat ≤ 2 := by
  unfold inputDevice at h
  split at h
  case h_4 => cases h
  all_goals omega

theorem toNat_le_two_of_outputDevice {dev : BitVec 5} {d : OutputDevice} (h : outputDevice dev = some d) :
    dev.toNat ≤ 2 := by
  unfold outputDevice at h
  split at h
  case h_4 => cases h
  all_goals omega

/-- The instruction does not complete at `s`: the environment holds its access (R182), or it raises the exception (R202). -/
def DoesNotComplete (i : Instr) (s : State) : Prop :=
  (usesKnownDevice i = true ∧ accessHeld s.env = true) ∨ ∃ rd rs, i = .div rd rs 0#5

/-- What the instruction's row of the tables lets it write of the registers (R23), the flags (R31) and pc (R26, R28). -/
structure WritesOnlyItsRow (i : Instr) (s t : State) : Prop where
  regs : SameRegsBut (registersWritten i) s t
  flags : writesFlags i = false → t.flags = s.flags
  pc : transfersControl i = false → t.pc = npcOf s ∨ (t.pc = s.pc ∧ DoesNotComplete i s)

/-- Once for every instruction: of registers, flags and pc its next state changes only what its row lets it. -/
theorem exec_writesOnlyItsRow {i : Instr} (h : exec i s = .next t) : WritesOnlyItsRow i s t := by
  cases i with
  | add | sub | mul =>
    obtain ⟨-, rfl⟩ := advance_eq_next.mp h
    exact ⟨sameRegsBut_writeReg _ _ s, nofun, fun _ => .inl rfl⟩
  | div rd rs v =>
    obtain ⟨hv, rfl⟩ | ⟨-, -, rfl⟩ := execDiv_eq_next.mp h
    · obtain rfl := (regImm_eq_zero_iff _ _).mp hv
      exact ⟨fun _ _ => rfl, nofun, fun _ => .inr ⟨rfl, .inr ⟨rd, rs, rfl⟩⟩⟩
    · exact ⟨sameRegsBut_writeReg _ _ s, nofun, fun _ => .inl rfl⟩
  | and | or | xor | not | ldi | lda =>
    obtain ⟨-, rfl⟩ := advance_eq_next.mp h
    exact ⟨sameRegsBut_writeReg _ _ s, fun _ => rfl, fun _ => .inl rfl⟩
  | ld =>
    obtain ⟨-, _, -, rfl⟩ := execLd_eq_next.mp h
    exact ⟨sameRegsBut_writeReg _ _ s, fun _ => rfl, fun _ => .inl rfl⟩
  | st =>
    obtain ⟨-, -, rfl⟩ := execSt_eq_next.mp h
    exact ⟨fun _ _ => rfl, fun _ => rfl, fun _ => .inl rfl⟩
  | jmp =>
    obtain rfl := execJmp_eq_next.mp h
    exact ⟨fun _ _ => rfl, fun _ => rfl, nofun⟩
  | jz =>
    obtain ⟨-, rfl⟩ | ⟨-, -, rfl⟩ := execJz_eq_next.mp h <;>
      exact ⟨fun _ _ => rfl, fun _ => rfl, nofun⟩
  | jnz =>
    obtain ⟨-, rfl⟩ | ⟨-, -, rfl⟩ := execJnz_eq_next.mp h <;>
      exact ⟨fun _ _ => rfl, fun _ => rfl, nofun⟩
  | call =>
    obtain ⟨-, rfl⟩ := execCall_eq_next.mp h
    exact ⟨sameRegsBut_writeReg _ _ s, fun _ => rfl, nofun⟩
  | inp rd dev =>
    obtain ⟨_, hd, ⟨ha, rfl⟩ | ⟨-, -, rfl⟩⟩ := execIn_eq_next.mp h
    · have known : usesKnownDevice (.inp rd dev) = true := decide_eq_true (toNat_le_two_of_inputDevice hd)
      exact ⟨fun _ _ => rfl, fun _ => rfl, fun _ => .inr ⟨rfl, .inl ⟨known, ha⟩⟩⟩
    · exact ⟨sameRegsBut_writeReg _ _ s, fun _ => rfl, fun _ => .inl rfl⟩
  | out dev rs =>
    obtain ⟨_, hd, ⟨ha, rfl⟩ | ⟨-, -, rfl⟩⟩ := execOut_eq_next.mp h
    · have known : usesKnownDevice (.out dev rs) = true := decide_eq_true (toNat_le_two_of_outputDevice hd)
      exact ⟨fun _ _ => rfl, fun _ => rfl, fun _ => .inr ⟨rfl, .inl ⟨known, ha⟩⟩⟩
    · exact ⟨fun _ _ => rfl, fun _ => rfl, fun _ => .inl rfl⟩
  | halt | nop =>
    obtain ⟨-, rfl⟩ := advance_eq_next.mp h
    exact ⟨fun _ _ => rfl, fun _ => rfl, fun _ => .inl rfl⟩

/-- Settles O40, by the pc of every instruction's row. -/
theorem onlyTransfersWriteAnotherPc : Obligations.OnlyTransfersWriteAnotherPc :=
  fun _ _ _ h => (exec_writesOnlyItsRow h).pc

/-- Settles O44, by the registers of every instruction's row. -/
theorem writesOnlyTheTableRegisters : Obligations.WritesOnlyTheTableRegisters :=
  fun _ _ _ h => (exec_writesOnlyItsRow h).regs

/-! The flags the four arithmetic instructions leave (R31, R111 to R114). -/

theorem execAdd_flags {rd rs : Reg} {imm5 : BitVec 5} (h : execAdd rd rs imm5 s = .next t) :
    t.flags = addFlags (readReg rs s) (regImm s.config.rimmExt imm5) := by
  obtain ⟨-, rfl⟩ := execAdd_eq_next.mp h
  rfl

theorem execSub_flags {rd rs : Reg} {imm5 : BitVec 5} (h : execSub rd rs imm5 s = .next t) :
    t.flags = subFlags s.config.subCarry (readReg rs s) (regImm s.config.rimmExt imm5) := by
  obtain ⟨-, rfl⟩ := execSub_eq_next.mp h
  rfl

theorem execMul_flags {rd rs : Reg} {imm5 : BitVec 5} (h : execMul rd rs imm5 s = .next t) :
    t.flags = mulFlags (readReg rs s) (regImm s.config.rimmExt imm5) s.flags := by
  obtain ⟨-, rfl⟩ := execMul_eq_next.mp h
  rfl

theorem execDiv_flags {rd rs : Reg} {imm5 : BitVec 5} (h : execDiv rd rs imm5 s = .next t) :
    t.flags = if imm5 = 0#5 then s.flags
      else divFlags (readReg rs s) (regImm s.config.rimmExt imm5) s.flags := by
  obtain ⟨hv, rfl⟩ | ⟨hv, -, rfl⟩ := execDiv_eq_next.mp h
  · rw [if_pos ((regImm_eq_zero_iff _ _).mp hv)]
    rfl
  · rw [if_neg (mt (regImm_eq_zero_iff _ _).mpr hv)]
    rfl

/-- Settles O46: the frame of the other sixteen instructions, and for ADD, SUB, MUL and DIV the flags written, in which
neither the destination nor, but for C and N of MUL and DIV, the flags before occur. -/
theorem flagsWrittenOnlyByArithmetic : Obligations.FlagsWrittenOnlyByArithmetic := by
  refine ⟨fun _ _ _ h => (exec_writesOnlyItsRow h).flags, ?_, ?_, ?_, ?_, ?_⟩
  · rintro rd rs imm5 s t (h | h)
    · rw [execMul_flags h]
      exact ⟨rfl, rfl⟩
    · rw [execDiv_flags h]
      split <;> exact ⟨rfl, rfl⟩
  · intro rd rs s t h
    exact (execDiv_flags h).trans (if_pos rfl)
  · intro rd rs imm5 f s t t' i hi h h'
    simp only [List.mem_cons, List.not_mem_nil, or_false] at hi
    obtain rfl | rfl := hi
    · exact (execAdd_flags h').trans (execAdd_flags h).symm
    · exact (execSub_flags h').trans (execSub_flags h).symm
  · intro rd rs imm5 f s t t' hv i hi h h'
    simp only [List.mem_cons, List.not_mem_nil, or_false] at hi
    obtain rfl | rfl := hi
    · rw [execMul_flags h, execMul_flags h']
      exact ⟨rfl, rfl⟩
    · rw [execDiv_flags h, execDiv_flags h', if_neg hv, if_neg hv]
      exact ⟨rfl, rfl⟩
  · intro f rs imm5 hf rd s t t0 h h0
    simp only [List.mem_cons, List.not_mem_nil, or_false] at hf
    obtain rfl | rfl | rfl | rfl := hf
    · exact (execAdd_flags h).trans (execAdd_flags h0).symm
    · exact (execSub_flags h).trans (execSub_flags h0).symm
    · exact (execMul_flags h).trans (execMul_flags h0).symm
    · exact (execDiv_flags h).trans (execDiv_flags h0).symm

/-! What two states with the same memory and parameters give a store (R55, R57). -/

theorem storeWord_mem_congr (hm : s'.mem = s.mem) (hc : s'.config = s.config) (a : Addr) (v : Word) :
    (storeWord a v s').mem = (storeWord a v s).mem := by
  simp only [storeWord, writeByte_mem, hm, hc]

/-- Under the same parameters both stores are performed, or neither. -/
theorem writeWord_both_or_neither (hc : s'.config = s.config) (a : Addr) (v : Word) :
    (writeWord a v s = none ∧ writeWord a v s' = none) ∨
    (writeWord a v s = some (storeWord a v s) ∧ writeWord a v s' = some (storeWord a v s')) := by
  simp only [writeWord, hc]
  split <;> simp

/-! The flags are never read (R30). -/

/-- Two states that differ in the flags alone give every instruction the same operands, and every update keeps them so. -/
theorem agreeButFlags_stepRelation : StepRelation AgreeButFlags where
  regs := fun ⟨hr, _⟩ => hr
  pc := fun ⟨_, hp, _⟩ => hp
  run := fun ⟨_, _, hu, _⟩ => hu
  env := fun ⟨_, _, _, _, _, he, _⟩ => he
  rimmExt := fun ⟨_, _, _, _, _, _, hc⟩ => by rw [hc]
  unusedFields := fun ⟨_, _, _, _, _, _, hc⟩ => by rw [hc]
  subCarry := fun ⟨_, _, _, _, _, _, hc⟩ => by rw [hc]
  pcWrap := fun ⟨_, _, _, _, _, _, hc⟩ => by rw [hc]
  readWord := fun _ ⟨_, _, _, hm, _, _, hc⟩ =>
    readWord_congr hc (readByte_of_mem_eq hm _) (readByte_of_mem_eq hm _)
  setPc := fun _ ⟨hr, _, rest⟩ => ⟨hr, rfl, rest⟩
  setFlags := fun _ h => h
  setRun := fun _ ⟨hr, hp, _, rest⟩ => ⟨hr, hp, rfl, rest⟩
  setEnv := fun _ ⟨hr, hp, hu, hm, ht, _, hc⟩ => ⟨hr, hp, hu, hm, ht, rfl, hc⟩
  record := fun e ⟨hr, hp, hu, hm, ht, rest⟩ => ⟨hr, hp, hu, hm, congrArg (· ++ [e]) ht, rest⟩
  writeReg := fun q v ⟨hr, rest⟩ => ⟨congrArg (withReg q v) hr, rest⟩
  writeWord := by
    rintro s t a v ⟨hr, hp, hu, hm, ht, he, hc⟩
    rcases writeWord_both_or_neither hc (physical a) v with hn | ⟨h1, h2⟩
    · exact .inl hn
    · exact .inr ⟨_, _, h1, h2, hr, hp, hu, storeWord_mem_congr hm hc _ _, ht, he, hc⟩

/-- Settles O47, as a relation that every step keeps. -/
theorem flagsAreNeverObserved : Obligations.FlagsAreNeverObserved :=
  fun _ _ => agreeButFlags_stepRelation.step_related

/-! A register an instruction does not read (R23). -/

section AgreeButReg

variable (h : AgreeButReg r s s')
include h

theorem agreeButReg_setPc (p : Word) : AgreeButReg r (setPc p s) (setPc p s') :=
  let ⟨hr, _, rest⟩ := h
  ⟨hr, rfl, rest⟩

theorem agreeButReg_setFlags (f : Flags) : AgreeButReg r (setFlags f s) (setFlags f s') :=
  let ⟨hr, hp, _, rest⟩ := h
  ⟨hr, hp, rfl, rest⟩

theorem agreeButReg_setRun (u : RunState) : AgreeButReg r (setRun u s) (setRun u s') :=
  let ⟨hr, hp, hf, _, rest⟩ := h
  ⟨hr, hp, hf, rfl, rest⟩

theorem agreeButReg_setEnv (e : Environment) : AgreeButReg r (setEnv e s) (setEnv e s') :=
  let ⟨hr, hp, hf, hu, hm, ht, _, hc⟩ := h
  ⟨hr, hp, hf, hu, hm, ht, rfl, hc⟩

theorem agreeButReg_record (e : DevEvent) : AgreeButReg r (record e s) (record e s') :=
  let ⟨hr, hp, hf, hu, hm, ht, rest⟩ := h
  ⟨hr, hp, hf, hu, hm, congrArg (· ++ [e]) ht, rest⟩

theorem agreeButReg_storeWord (a : Addr) (v : Word) : AgreeButReg r (storeWord a v s) (storeWord a v s') :=
  let ⟨hr, hp, hf, hu, hm, ht, he, hc⟩ := h
  ⟨hr, hp, hf, hu, storeWord_mem_congr hm hc a v, ht, he, hc⟩

/-- The written register may be the one in which the states differ: after the write they agree there as well. -/
theorem agreeButReg_writeReg (rd : Reg) (v : Word) : AgreeButReg r (writeReg rd v s) (writeReg rd v s') := by
  obtain ⟨hr, rest⟩ := h
  refine ⟨fun q hq => ?_, rest⟩
  rw [readReg_writeReg, readReg_writeReg, hr q hq]

theorem agreeButReg_readWord (a : Addr) : readWord a s' = readWord a s :=
  let ⟨_, _, _, _, hm, _, _, hc⟩ := h
  readWord_congr hc (readByte_of_mem_eq hm _) (readByte_of_mem_eq hm _)

theorem agreeButReg_nextPc : nextPc s' = nextPc s := by
  obtain ⟨-, hp, -, -, -, -, -, hc⟩ := h
  simp only [nextPc, hp, hc]

theorem agreeButReg_advance : OutcomesRelated (AgreeButReg r) (advance s) (advance s') := by
  have ⟨_, hp, _⟩ := h
  unfold advance
  rw [agreeButReg_nextPc h, hp]
  cases nextPc s with
  | none => rfl
  | some n => exact agreeButReg_setPc h n

theorem agreeButReg_advance_writeReg (rd : Reg) (v : Word) :
    OutcomesRelated (AgreeButReg r) (advance (writeReg rd v s)) (advance (writeReg rd v s')) :=
  agreeButReg_advance (agreeButReg_writeReg h rd v)

theorem agreeButReg_advance_writeReg_flags (f : Flags) (rd : Reg) (v : Word) :
    OutcomesRelated (AgreeButReg r) (advance (setFlags f (writeReg rd v s)))
      (advance (setFlags f (writeReg rd v s'))) :=
  agreeButReg_advance (agreeButReg_setFlags (agreeButReg_writeReg h rd v) f)

end AgreeButReg

/-- Settles O45: the operands are the same in both states, and each update of the state keeps the agreement. -/
theorem readsOnlyTheTableRegisters : Obligations.ReadsOnlyTheTableRegisters := by
  intro i r s s' hr h
  have ⟨hregs, hp, hf, _, _, _, he, hc⟩ := h
  have hx (q : Reg) (hq : q ∈ registersRead i) : readReg q s' = readReg q s :=
    hregs q fun hqr => hr (List.mem_singleton.mp hqr ▸ hq)
  cases i with
  | add rd rs | sub rd rs | mul rd rs =>
    simp only [exec, execAdd, execSub, execMul, hx rs List.mem_cons_self, hc, hf]
    exact agreeButReg_advance_writeReg_flags h _ _ _
  | div rd rs v =>
    simp only [exec, execDiv, hx rs List.mem_cons_self, hc, hf]
    split
    · simp only [takeException, hp]
      exact agreeButReg_setRun h _
    · exact agreeButReg_advance_writeReg_flags h _ _ _
  | and rd rs | or rd rs | xor rd rs | not rd rs =>
    simp only [exec, execAnd, execOr, execXor, execNot, hx rs List.mem_cons_self, hc]
    exact agreeButReg_advance_writeReg h _ _
  | ld rd rs v =>
    simp only [exec, execLd, dataAddress, hx rs List.mem_cons_self, hc, agreeButReg_readWord h, hp]
    split
    · rfl
    · exact agreeButReg_advance_writeReg h _ _
  | st rd rs v =>
    have hrs := hx rs (List.mem_cons_of_mem _ List.mem_cons_self)
    simp only [exec, execSt, dataAddress, hx rd List.mem_cons_self, hrs, hc, hp]
    obtain ⟨h1, h2⟩ | ⟨h1, h2⟩ := writeWord_both_or_neither hc
        (physical (effectiveAddress (readReg rd s) (regImm s.config.rimmExt v))) (readReg rs s)
    · simp only [h1, h2, OutcomesRelated]
    · simp only [h1, h2]
      exact agreeButReg_advance (agreeButReg_storeWord h _ _)
  | ldi | lda => exact agreeButReg_advance_writeReg h _ _
  | jmp => exact agreeButReg_setPc h _
  | jz rd v | jnz rd v =>
    simp only [exec, execJz, execJnz, hx rd List.mem_cons_self]
    split
    · exact agreeButReg_setPc h _
    · exact agreeButReg_advance h
  | call rd =>
    simp only [exec, execCall, hx rd List.mem_cons_self, agreeButReg_nextPc h, hp]
    split
    · rfl
    · exact agreeButReg_setPc (agreeButReg_writeReg h _ _) _
  | inp rd dev =>
    simp only [exec, execIn, he, hp]
    split
    · rfl
    · split
      · simp only [waitForDevice, he]
        exact agreeButReg_setEnv h _
      · simp only [afterDevRead, he]
        exact agreeButReg_advance_writeReg (agreeButReg_record (agreeButReg_setEnv h _) _) _ _
  | out dev rs =>
    simp only [exec, execOut, hx rs List.mem_cons_self, he, hp]
    split
    · rfl
    · split
      · simp only [waitForDevice, he]
        exact agreeButReg_setEnv h _
      · simp only [afterDevWrite, he]
        exact agreeButReg_advance (agreeButReg_record (agreeButReg_setEnv h _) _)
  | halt => exact agreeButReg_advance (agreeButReg_setRun h _)
  | nop => exact agreeButReg_advance h

/-! The step (R37), and the state after reset (R40). -/

/-- Settles O37: the word read at pc is the word fetched. -/
theorem stepRunsDecodedInstruction : Obligations.StepRunsDecodedInstruction :=
  fun _ _ _ hr hw hd => step_of_decoded hr (fetch_eq_ok.mpr hw) hd

/-- Settles O48, by what the reset state lists (R40). -/
theorem resetValues : Obligations.ResetValues := ⟨readReg_r0 _, rfl, rfl, rfl⟩

/-- Settles O50: no byte is written after reset, and the machine is running. -/
theorem resetMeetsTheInvariant : Obligations.ResetMeetsTheInvariant where
  memory := reset_mem_wf
  exception := nofun
  halted := nofun

end Sys2Proof.Machine

/-! Proofs of the statements about memory (20_memory.md): the access primitives (R54, R55), the fetch (R57, R59), what a
load or a fetch sees of a store (R61, R65), the reach of a program (R52), the byte order (R56), and the invariant (R50). -/

namespace Sys2Proof.Machine

variable {s t : State} {a x : Addr} {v : Word}

/-! The two bytes of a word as numbers (R54 to R56). -/

theorem toNat_append_bytes (hi lo : Byte) : (hi ++ lo : Word).toNat = hi.toNat * 256 + lo.toNat := by
  rw [BitVec.toNat_append, ← Nat.shiftLeft_add_eq_or_of_lt lo.isLt, Nat.shiftLeft_eq]

theorem toNat_wordOfBytes (order : ByteOrder) (b0 b1 : Byte) :
    (order = .little → (wordOfBytes order b0 b1).toNat = b1.toNat * 256 + b0.toNat) ∧
    (order = .big → (wordOfBytes order b0 b1).toNat = b0.toNat * 256 + b1.toNat) := by
  constructor
  · rintro rfl
    exact toNat_append_bytes b1 b0
  · rintro rfl
    exact toNat_append_bytes b0 b1

theorem toNat_lowByte (v : Word) : (v.extractLsb' 0 8).toNat = v.toNat % 256 :=
  BitVec.extractLsb'_toNat 0 8 v

theorem toNat_highByte (v : Word) : (v.extractLsb' 8 8).toNat = v.toNat / 256 := by
  have hv := v.isLt
  rw [BitVec.extractLsb'_toNat, Nat.shiftRight_eq_div_pow]
  omega

theorem toNat_byteAt (order : ByteOrder) (v : Word) :
    (order = .little →
      (byteAtLow order v).toNat = v.toNat % 256 ∧ (byteAtHigh order v).toNat = v.toNat / 256) ∧
    (order = .big →
      (byteAtLow order v).toNat = v.toNat / 256 ∧ (byteAtHigh order v).toNat = v.toNat % 256) := by
  constructor
  · rintro rfl
    exact ⟨toNat_lowByte v, toNat_highByte v⟩
  · rintro rfl
    exact ⟨toNat_highByte v, toNat_lowByte v⟩

/-! The two addresses of a word (R50, R52, R54). -/

theorem toNat_succ_of_even (h : a.toNat % 2 = 0) : (a + 1#17).toNat = a.toNat + 1 := by
  have ha := a.isLt
  rw [BitVec.toNat_add, BitVec.toNat_ofNat]
  omega

/-- The two bytes of an aligned word are each other's partner under the exchange of R56. -/
theorem xor_one_of_even (h : a.toNat % 2 = 0) : a ^^^ 1#17 = a + 1#17 := by
  apply BitVec.eq_of_toNat_eq
  rw [BitVec.toNat_xor, toNat_succ_of_even h]
  exact Nat.xor_one_of_even (Nat.even_iff.mpr h)

theorem xor_one_eq_iff {y : Addr} : x ^^^ 1#17 = y ↔ x = y ^^^ 1#17 := by
  rw [← BitVec.xor_left_inj 1#17, BitVec.xor_assoc, BitVec.xor_self, BitVec.xor_zero]

theorem succ_xor_one_of_even (h : a.toNat % 2 = 0) : (a + 1#17) ^^^ 1#17 = a :=
  xor_one_eq_iff.mpr (xor_one_of_even h).symm

theorem physical_eq_ofNat (p : Word) : physical p = BitVec.ofNat 17 p.toNat := (BitVec.ofNat_toNat 17 p).symm

theorem toNat_physical_lt (p : Word) : (physical p).toNat < 65536 := by
  rw [toNat_physical]
  exact p.isLt

theorem toNat_physical_succ_lt {p : Word} (h : (physical p).toNat % 2 = 0) :
    (physical p + 1#17).toNat < 65536 := by
  have hp := toNat_physical_lt p
  rw [toNat_succ_of_even h]
  omega

/-! The access primitives. -/

/-- Where an odd address is a fault, the accesses performed are those at even addresses (R57). -/
theorem even_of_accessAllowed (hm : s.config.misaligned = .fault)
    (h : accessAllowed s.config.misaligned a = true) : a.toNat % 2 = 0 :=
  ((accessAllowed_iff _ _).mp h).resolve_right (by simp [hm])

theorem readByte_storeWord_low (a : Addr) (v : Word) (s : State) :
    readByte a (storeWord a v s) = byteAtLow s.config.byteOrder v := by
  rw [readByte_storeWord, if_pos rfl]

theorem readByte_storeWord_high (a : Addr) (v : Word) (s : State) :
    readByte (a + 1#17) (storeWord a v s) = byteAtHigh s.config.byteOrder v := by
  rw [readByte_storeWord, if_neg (addr_ne_succ a).symm, if_pos rfl]

theorem readWord_of_accessible (h : Accessible a s) :
    readWord a s = some (wordOfBytes s.config.byteOrder (readByte a s) (readByte (a + 1#17) s)) :=
  readWord_eq_some.mpr ⟨accessAllowed_of_accessible h, rfl⟩

/-- Two machines with one alignment rule read the same word where the accesses performed give the same. -/
theorem readWord_eq_of_allowed (hm : t.config.misaligned = s.config.misaligned)
    (h : accessAllowed s.config.misaligned a = true →
      wordOfBytes t.config.byteOrder (readByte a t) (readByte (a + 1#17) t) =
        wordOfBytes s.config.byteOrder (readByte a s) (readByte (a + 1#17) s)) :
    readWord a t = readWord a s := by
  unfold readWord
  rw [hm]
  split
  · next ha => rw [h ha]
  · rfl

/-- Under one alignment rule two stores are refused together, or performed together at an allowed address. -/
theorem writeWord_related {R : State → State → Prop} (hm : t.config.misaligned = s.config.misaligned)
    (h : accessAllowed s.config.misaligned a = true → R (storeWord a v s) (storeWord a v t)) :
    (writeWord a v s = none ∧ writeWord a v t = none) ∨
    ∃ s' t', writeWord a v s = some s' ∧ writeWord a v t = some t' ∧ R s' t' := by
  unfold writeWord
  rw [hm]
  split
  · next ha => exact .inr ⟨_, _, rfl, rfl, h ha⟩
  · exact .inl ⟨rfl, rfl⟩

/-- Settles O17: the store puts the two bytes of the word and no other, and the read puts two bytes together. -/
theorem wordAccessPrimitives : Obligations.WordAccessPrimitives := by
  intro a v s
  refine ⟨fun he => ?_, fun he => ?_, fun ho hf => ?_⟩
  · have ha := accessAllowed_of_accessible (s := s) (.inl he)
    refine ⟨storeWord a v s, writeWord_eq_some.mpr ⟨ha, rfl⟩, readWord_storeWord a v s ha, ?_⟩
    rw [readByte_storeWord_low, readByte_storeWord_high]
    obtain ⟨little, big⟩ := toNat_byteAt s.config.byteOrder v
    exact ⟨little, big, fun x h0 h1 => readByte_storeWord_other h0 h1 v s⟩
  · exact ⟨_, readWord_of_accessible (.inl he), toNat_wordOfBytes _ _ _⟩
  · have hn : ¬ Accessible a s := by simp [Accessible, ho, hf]
    have ha := accessAllowed_of_not_accessible hn
    exact ⟨readWord_eq_none.mpr ha, writeWord_eq_none.mpr ha⟩

/-! The fetch (R57, R59). -/

theorem fetch_of_accessible (h : Accessible (physical s.pc) s) :
    fetch s = .ok (wordOfBytes s.config.byteOrder (readByte (BitVec.ofNat 17 s.pc.toNat) s)
      (readByte (BitVec.ofNat 17 (s.pc.toNat + 1)) s)) := by
  rw [fetch_eq_ok, readWord_of_accessible h, BitVec.ofNat_add, ← physical_eq_ofNat]

theorem fetch_of_not_accessible (h : ¬ Accessible (physical s.pc) s) :
    fetch s = .error (.misalignedFetch s.pc) :=
  fetch_eq_error.mpr ⟨readWord_eq_none.mpr (accessAllowed_of_not_accessible h), rfl⟩

/-- Settles O38, by whether the access at pc is performed. -/
theorem fetchRule : Obligations.FetchRule := by
  intro s
  refine ⟨fun ho hf => ?_, fun he => ?_⟩
  · exact fetch_of_not_accessible (by simp [Accessible, toNat_physical, ho, hf])
  · have ha : Accessible (physical s.pc) s := .inl ((toNat_physical s.pc).symm ▸ he)
    exact ⟨_, fetch_of_accessible ha, toNat_wordOfBytes _ _ _⟩

/-- Settles O56: under `MISALIGNED = split` the access at an odd pc is performed as any other. -/
theorem splitFetchRule : Obligations.SplitFetchRule :=
  fun _ hm _ => ⟨_, fetch_of_accessible (.inr hm), toNat_wordOfBytes _ _ _⟩

/-- Settles O42: the word is stored at pc, where the fetch reads it back. -/
theorem placedWordIsFetched : Obligations.PlacedWordIsFetched := by
  intro s w h
  have hw : BitVec.ofNat 16 (w % 2 ^ 16) = BitVec.ofNat 16 w := by
    rw [← BitVec.toNat_ofNat, BitVec.ofNat_toNat, BitVec.setWidth_eq]
  rw [← hw]
  exact fetch_eq_ok.mpr (readWord_storeWord _ _ s (accessAllowed_of_accessible h))

/-! What comes after a store (R61, R65). -/

theorem readWord_after_st {b d : Reg} {imm5 : BitVec 5} (h : exec (.st b d imm5) s = .next t) :
    readWord (physical (dataAddress b imm5 s)) t = some (readReg d s) := by
  obtain ⟨-, ha, rfl⟩ := execSt_eq_next.mp h
  exact readWord_storeWord _ _ s ha

/-- Settles O21: the LD reads the word at the address the ST stored to. -/
theorem loadReturnsMostRecentStore : Obligations.LoadReturnsMostRecentStore := by
  intro b d b' x imm5 imm5' s t t' hst hea hld
  obtain ⟨-, w, hw, rfl⟩ := execLd_eq_next.mp hld
  rw [hea, readWord_after_st hst, Option.some.injEq] at hw
  rw [hw, readReg_setPc, readReg_writeReg_same]

/-- Settles O22: the fetch reads the word at pc, the address the ST stored to. -/
theorem storeSeenByNextFetch : Obligations.StoreSeenByNextFetch :=
  fun _ _ _ _ _ hst hpc => fetch_eq_ok.mpr (hpc ▸ readWord_after_st hst)

/-! What an instruction does to memory and to the run state. -/

/-- Memory is as before, or one word has been stored at a 16-bit address whose access is performed (R38, R52, R57). -/
theorem exec_mem_cases {i : Instr} (h : exec i s = .next t) :
    t.mem = s.mem ∨ ∃ p v, accessAllowed s.config.misaligned (physical p) = true ∧
      t.mem = (storeWord (physical p) v s).mem := by
  obtain ⟨-, hm | ⟨rd, rs, imm5, rfl⟩⟩ := exec_keeps_config_and_mem h
  · exact .inl hm
  · obtain ⟨-, ha, rfl⟩ := execSt_eq_next.mp h
    exact .inr ⟨_, _, ha, rfl⟩

/-- The run state is as before, but after a DIV with immediate 0 and after HALT (R185, R200, R202). -/
theorem exec_run_cases {i : Instr} (h : exec i s = .next t) :
    t.run = s.run ∨
    (∃ rd rs, i = .div rd rs 0#5 ∧ t = setRun (.exception .divideByZero s.pc) s) ∨
    (i = .halt ∧ t = setPc (npcOf s) (setRun .halted s)) := by
  cases i with
  | add | sub | mul | and | or | xor | not | ldi | lda | nop =>
    obtain ⟨-, rfl⟩ := advance_eq_next.mp h
    exact .inl rfl
  | div rd rs v =>
    obtain ⟨hv, rfl⟩ | ⟨-, -, rfl⟩ := execDiv_eq_next.mp h
    · obtain rfl := (regImm_eq_zero_iff _ _).mp hv
      exact .inr (.inl ⟨rd, rs, rfl, rfl⟩)
    · exact .inl rfl
  | ld =>
    obtain ⟨-, _, -, rfl⟩ := execLd_eq_next.mp h
    exact .inl rfl
  | st =>
    obtain ⟨-, -, rfl⟩ := execSt_eq_next.mp h
    exact .inl rfl
  | jmp =>
    obtain rfl := execJmp_eq_next.mp h
    exact .inl rfl
  | jz =>
    obtain ⟨-, rfl⟩ | ⟨-, -, rfl⟩ := execJz_eq_next.mp h <;> exact .inl rfl
  | jnz =>
    obtain ⟨-, rfl⟩ | ⟨-, -, rfl⟩ := execJnz_eq_next.mp h <;> exact .inl rfl
  | call =>
    obtain ⟨-, rfl⟩ := execCall_eq_next.mp h
    exact .inl rfl
  | inp =>
    obtain ⟨_, -, ⟨-, rfl⟩ | ⟨-, -, rfl⟩⟩ := execIn_eq_next.mp h <;> exact .inl rfl
  | out =>
    obtain ⟨_, -, ⟨-, rfl⟩ | ⟨-, -, rfl⟩⟩ := execOut_eq_next.mp h <;> exact .inl rfl
  | halt =>
    obtain ⟨-, rfl⟩ := execHalt_eq_next.mp h
    exact .inr (.inr ⟨rfl, rfl⟩)

/-! The invariant (R50, R185, R202, R203). -/

theorem exec_keeps_wf {i : Instr} (h : exec i s = .next t) (hw : s.mem.wf = true) : t.mem.wf = true := by
  obtain hm | ⟨p, v, -, hm⟩ := exec_mem_cases h
  · rwa [hm]
  · rw [hm]
    exact storeWord_keeps_wf _ _ hw

theorem npcOf_sub_two (s : State) : npcOf s - 2#16 = s.pc := by
  have h : npcOf s = s.pc + 2#16 := by
    apply BitVec.eq_of_toNat_eq
    simp [npcOf, BitVec.toNat_add]
  rw [h, BitVec.add_sub_cancel]

/-- Settles O51: the instruction just fetched is the one an exception or a halt must show, and neither of the two writes
memory. -/
theorem stepKeepsTheInvariant : Obligations.StepKeepsTheInvariant := by
  intro s t hs h
  obtain ⟨-, rfl⟩ | ⟨hr, w, i, hf, hd, hi⟩ := step_eq_next.mp h
  · exact hs
  have atPc : InstrAt s s.pc i := ⟨w, hf, hd⟩
  have hw := exec_keeps_wf hi hs.memory
  obtain hrun | ⟨rd, rs, rfl, rfl⟩ | ⟨rfl, rfl⟩ := exec_run_cases hi
  · rw [hr] at hrun
    exact ⟨hw, fun _ _ e => (nomatch hrun.symm.trans e), fun e => (nomatch hrun.symm.trans e)⟩
  · refine ⟨hw, fun c a e => ?_, nofun⟩
    cases e
    exact ⟨rfl, rd, rs, atPc⟩
  · refine ⟨hw, nofun, fun _ => ?_⟩
    rw [setPc_pc, npcOf_sub_two]
    exact atPc

/-! Memory above 0x0FFFF (R52). -/

/-- Only between two next states do the outcomes ask for the relation. -/
theorem OutcomesRelated.mono {R S : State → State → Prop} (hRS : ∀ {s t}, R s t → S s t)
    {o o' : Host.Outcome State Fault Refusal} (h : OutcomesRelated R o o') : OutcomesRelated S o o' := by
  cases o <;> cases o'
  case next.next => exact hRS h
  all_goals exact h

/-- The states differ at most in memory above 0x0FFFF, and no access is split, so that none reaches there (R52, R57). -/
def LowMemoryTwins (s t : State) : Prop := s.config.misaligned = .fault ∧ AgreeBelow64K s t

theorem readByte_storeWord_congr (hc : t.config = s.config) (hx : readByte x t = readByte x s)
    (a : Addr) (v : Word) :
    readByte x (storeWord a v t) = readByte x (storeWord a v s) := by
  rw [readByte_storeWord, readByte_storeWord, hc, hx]

/-- Both bytes of a word that is read lie below 0x10000, and a store puts the same bytes into both memories. -/
theorem lowMemoryTwins_stepRelation : StepRelation LowMemoryTwins where
  regs := fun ⟨_, hr, _⟩ => hr
  pc := fun ⟨_, _, hp, _⟩ => hp
  run := fun ⟨_, _, _, _, hu, _⟩ => hu
  env := fun ⟨_, _, _, _, _, _, he, _⟩ => he
  rimmExt := fun ⟨_, _, _, _, _, _, _, hc, _⟩ => by rw [hc]
  unusedFields := fun ⟨_, _, _, _, _, _, _, hc, _⟩ => by rw [hc]
  subCarry := fun ⟨_, _, _, _, _, _, _, hc, _⟩ => by rw [hc]
  pcWrap := fun ⟨_, _, _, _, _, _, _, hc, _⟩ => by rw [hc]
  readWord := by
    rintro s t p ⟨hm, -, -, -, -, -, -, hc, hb⟩
    refine readWord_eq_of_allowed (by rw [hc]) fun ha => ?_
    have he := even_of_accessAllowed hm ha
    rw [hc, hb _ (toNat_physical_lt p), hb _ (toNat_physical_succ_lt he)]
  setPc := fun _ ⟨hm, hr, _, rest⟩ => ⟨hm, hr, rfl, rest⟩
  setFlags := fun g ⟨hm, hr, hp, hf, rest⟩ => ⟨hm, hr, hp, congrArg g hf, rest⟩
  setRun := fun _ ⟨hm, hr, hp, hf, _, rest⟩ => ⟨hm, hr, hp, hf, rfl, rest⟩
  setEnv := fun _ ⟨hm, hr, hp, hf, hu, ht, _, rest⟩ => ⟨hm, hr, hp, hf, hu, ht, rfl, rest⟩
  record := fun e ⟨hm, hr, hp, hf, hu, ht, rest⟩ => ⟨hm, hr, hp, hf, hu, congrArg (· ++ [e]) ht, rest⟩
  writeReg := fun q v ⟨hm, hr, rest⟩ => ⟨hm, congrArg (withReg q v) hr, rest⟩
  writeWord := by
    rintro s t p v ⟨hm, hr, hp, hf, hu, ht, he, hc, hb⟩
    refine writeWord_related (by rw [hc]) fun _ => ⟨hm, hr, hp, hf, hu, ht, he, hc, fun x hx => ?_⟩
    exact readByte_storeWord_congr hc (hb x hx) _ _

theorem exec_keeps_upper_byte {i : Instr} (hm : s.config.misaligned = .fault) (h : exec i s = .next t)
    (hx : 65536 ≤ x.toNat) : readByte x t = readByte x s := by
  obtain hmem | ⟨p, v, ha, hmem⟩ := exec_mem_cases h
  · exact readByte_of_mem_eq hmem x
  · have h0 := toNat_physical_lt p
    have h1 := toNat_physical_succ_lt (even_of_accessAllowed hm ha)
    rw [readByte_of_mem_eq hmem x]
    exact readByte_storeWord_other (by rintro rfl; omega) (by rintro rfl; omega) v s

/-- Settles O53: the twins stay twins, and the word a step may store lies below 0x10000. -/
theorem upperMemoryIsOutOfReach : Obligations.UpperMemoryIsOutOfReach := by
  intro s s' hm hb
  refine ⟨(lowMemoryTwins_stepRelation.step_related ⟨hm, hb⟩).mono And.right, fun t h a ha => ?_⟩
  obtain ⟨-, rfl⟩ | ⟨-, w, i, -, -, hi⟩ := step_eq_next.mp h
  · rfl
  · exact exec_keeps_upper_byte hm hi ha

/-! The byte order (R56). -/

/-- At an even address the two orders read the exchanged bytes as one word. -/
theorem ByteOrderMirror.readWord_eq (h : ByteOrderMirror s t) (a : Addr) : readWord a t = readWord a s := by
  obtain ⟨-, -, -, -, -, -, hl, hc, hm, hb⟩ := h
  refine readWord_eq_of_allowed (by rw [hc]) fun ha => ?_
  have he := even_of_accessAllowed hm ha
  rw [hc, hl, hb, hb, xor_one_of_even he, succ_xor_one_of_even he]
  rfl

/-- At an even address the two orders store one word as exchanged bytes. -/
theorem storeWord_keeps_mirror (h : ByteOrderMirror s t) (he : a.toNat % 2 = 0) (v : Word) :
    ByteOrderMirror (storeWord a v s) (storeWord a v t) := by
  obtain ⟨hr, hp, hf, hu, ht, hv, hl, hc, hm, hb⟩ := h
  refine ⟨hr, hp, hf, hu, ht, hv, hl, hc, hm, fun x => ?_⟩
  rw [readByte_storeWord, readByte_storeWord, hb, hc, hl]
  simp only [xor_one_eq_iff, xor_one_of_even he, succ_xor_one_of_even he]
  by_cases h0 : x = a
  · subst h0
    rw [if_pos rfl, if_neg (addr_ne_succ x), if_pos rfl]
    rfl
  · rw [if_neg h0, if_neg h0]
    rfl

/-- The other byte order shows in the bytes of memory alone, and those are read and written by aligned words. -/
theorem byteOrderMirror_stepRelation : StepRelation ByteOrderMirror where
  regs := fun ⟨hr, _⟩ => hr
  pc := fun ⟨_, hp, _⟩ => hp
  run := fun ⟨_, _, _, hu, _⟩ => hu
  env := fun ⟨_, _, _, _, _, he, _⟩ => he
  rimmExt := fun ⟨_, _, _, _, _, _, _, hc, _⟩ => by rw [hc]
  unusedFields := fun ⟨_, _, _, _, _, _, _, hc, _⟩ => by rw [hc]
  subCarry := fun ⟨_, _, _, _, _, _, _, hc, _⟩ => by rw [hc]
  pcWrap := fun ⟨_, _, _, _, _, _, _, hc, _⟩ => by rw [hc]
  readWord := fun p h => h.readWord_eq (physical p)
  setPc := fun _ ⟨hr, _, rest⟩ => ⟨hr, rfl, rest⟩
  setFlags := fun g ⟨hr, hp, hf, rest⟩ => ⟨hr, hp, congrArg g hf, rest⟩
  setRun := fun _ ⟨hr, hp, hf, _, rest⟩ => ⟨hr, hp, hf, rfl, rest⟩
  setEnv := fun _ ⟨hr, hp, hf, hu, ht, _, rest⟩ => ⟨hr, hp, hf, hu, ht, rfl, rest⟩
  record := fun e ⟨hr, hp, hf, hu, ht, rest⟩ => ⟨hr, hp, hf, hu, congrArg (· ++ [e]) ht, rest⟩
  writeReg := fun q v ⟨hr, rest⟩ => ⟨congrArg (withReg q v) hr, rest⟩
  writeWord := by
    intro s t p v h
    have ⟨_, _, _, _, _, _, _, hc, hm, _⟩ := h
    exact writeWord_related (by rw [hc]) fun ha => storeWord_keeps_mirror h (even_of_accessAllowed hm ha) v

/-- Settles O54, as a relation that every step keeps. -/
theorem byteOrderIsNotObservable : Obligations.ByteOrderIsNotObservable :=
  fun _ _ => byteOrderMirror_stepRelation.step_related

end Sys2Proof.Machine

/-! Proofs of the statements about the encoding (30_encoding.md): the decoder against the encoder (R88, R91, R98), the
words that stop (R88, R89), the immediates (R86), and the assembler's operands (R94, R95). -/

namespace Sys2Proof.Machine

variable {s : State} {w : Word} {i : Instr} {u : UnusedFields} {ext : ImmExt}

/-! A word without its unused fields (R83 to R85, R88), one lemma for each mask of the table. -/

theorem and_encodeR (w : Word) (op : BitVec 5) (rd rs : BitVec 3) (imm5 : BitVec 5) :
    w &&& encodeR op rd rs imm5 =
      encodeR (opField w &&& op) (rdField w &&& rd) (rsField w &&& rs) (imm5Field w &&& imm5) := by
  conv_lhs => rw [← encodeR_fields w]
  unfold encodeR
  rw [← BitVec.and_append, ← BitVec.and_append]
  exact BitVec.and_append

theorem and_encodeI (w : Word) (op : BitVec 5) (rd : BitVec 3) (imm8 : BitVec 8) :
    w &&& encodeI op rd imm8 = encodeI (opField w &&& op) (rdField w &&& rd) (imm8Field w &&& imm8) := by
  conv_lhs => rw [← encodeI_fields w]
  unfold encodeI
  rw [← BitVec.and_append]
  exact BitVec.and_append

theorem clear_no_field (w : Word) : w &&& ~~~0x0000#16 = w := BitVec.and_allOnes

theorem clear_imm5 (w : Word) : w &&& ~~~0x001F#16 = encodeR (opField w) (rdField w) (rsField w) 0#5 := by
  have h := and_encodeR w (.allOnes 5) (.allOnes 3) (.allOnes 3) 0#5
  rwa [BitVec.and_allOnes, BitVec.and_allOnes, BitVec.and_allOnes, BitVec.and_zero] at h

theorem clear_rs (w : Word) : w &&& ~~~0x00E0#16 = encodeR (opField w) (rdField w) 0#3 (imm5Field w) := by
  have h := and_encodeR w (.allOnes 5) (.allOnes 3) 0#3 (.allOnes 5)
  rwa [BitVec.and_allOnes, BitVec.and_allOnes, BitVec.and_allOnes, BitVec.and_zero] at h

theorem clear_rd (w : Word) : w &&& ~~~0x0700#16 = encodeR (opField w) 0#3 (rsField w) (imm5Field w) := by
  have h := and_encodeR w (.allOnes 5) 0#3 (.allOnes 3) (.allOnes 5)
  rwa [BitVec.and_allOnes, BitVec.and_allOnes, BitVec.and_allOnes, BitVec.and_zero] at h

theorem clear_rd_keep_imm8 (w : Word) : w &&& ~~~0x0700#16 = encodeI (opField w) 0#3 (imm8Field w) := by
  have h := and_encodeI w (.allOnes 5) 0#3 (.allOnes 8)
  rwa [BitVec.and_allOnes, BitVec.and_allOnes, BitVec.and_zero] at h

theorem clear_rs_imm5 (w : Word) : w &&& ~~~0x00FF#16 = encodeR (opField w) (rdField w) 0#3 0#5 := by
  have h := and_encodeR w (.allOnes 5) (.allOnes 3) 0#3 0#5
  rwa [BitVec.and_allOnes, BitVec.and_allOnes, BitVec.and_zero, BitVec.and_zero] at h

theorem clear_all_but_op (w : Word) : w &&& ~~~0x07FF#16 = encodeN (opField w) := by
  have h := and_encodeI w (.allOnes 5) 0#3 0#8
  rw [BitVec.and_allOnes, BitVec.and_zero, BitVec.and_zero] at h
  refine h.trans ?_
  unfold encodeI encodeN
  rw [BitVec.append_assoc]
  rfl

/-! The opcode map against the encoder (R87, R91, R98). -/

theorem opcodeOf_of_decodeOpcode (h : decodeOpcode w = some i) : opcodeOf i = opField w := by
  unfold decodeOpcode at h
  split at h <;> cases h
  all_goals exact BitVec.eq_of_toNat_eq (Eq.symm ‹_›)

/-- The canonical word of what a word decodes to is the word with its unused fields cleared. The cases are the rows of
R87 in order, `h_1` that of opcode 0x00; those not named have no unused field and Register format. -/
theorem encode_of_decodeOpcode (h : decodeOpcode w = some i) : encode i = w &&& ~~~(unusedMask i) := by
  have hop := opcodeOf_of_decodeOpcode h
  unfold decodeOpcode at h
  split at h <;> cases h
  all_goals simp only [encode, hop, unusedMask, regBits_regOfBits]
  case h_8 => exact (clear_imm5 w).symm
  case h_11 | h_12 => rw [encodeI_fields, clear_no_field]
  case h_13 => exact (clear_rd_keep_imm8 w).symm
  case h_14 | h_15 | h_17 => exact (clear_rs w).symm
  case h_16 => exact (clear_rs_imm5 w).symm
  case h_18 => exact (clear_rd w).symm
  case h_19 | h_20 => exact (clear_all_but_op w).symm
  all_goals rw [encodeR_fields, clear_no_field]

/-- Row by row, the fields of an encoded word read back as they were put in. -/
theorem decodeOpcode_encode (i : Instr) : decodeOpcode (encode i) = some i := by
  cases i <;> simp [decodeOpcode, encode, opcodeOf]

theorem encode_and_unusedMask (i : Instr) : encode i &&& unusedMask i = 0#16 := by
  have h := encode_of_decodeOpcode (decodeOpcode_encode i)
  rw [h, BitVec.and_assoc, BitVec.and_comm (~~~_), BitVec.and_not_self]
  exact BitVec.and_zero

/-- No unused field reaches into the opcode. -/
theorem opField_clear_unused (w : Word) (i : Instr) : opField (w &&& ~~~(unusedMask i)) = opField w := by
  have h : (~~~(unusedMask i)).extractLsb' 11 5 = .allOnes 5 := by cases i <;> simp only [unusedMask] <;> rfl
  rw [opField, BitVec.extractLsb'_and, h, BitVec.and_allOnes, opField]

/-- The opcode alone decides the row, and with it the unused fields. -/
theorem exists_decodeOpcode (h : opField w = opcodeOf i) :
    ∃ j, decodeOpcode w = some j ∧ unusedMask j = unusedMask i := by
  unfold decodeOpcode
  rw [h]
  cases i <;> exact ⟨_, rfl, rfl⟩

/-- The decoder reads an instruction from exactly the words that are its canonical word outside its unused fields. -/
theorem decodeOpcode_eq_some : decodeOpcode w = some i ↔ w &&& ~~~(unusedMask i) = encode i := by
  constructor
  · exact fun h => (encode_of_decodeOpcode h).symm
  · intro h
    have hop : opField w = opcodeOf i := by
      rw [← opField_clear_unused w i, h, opcodeOf_of_decodeOpcode (decodeOpcode_encode i)]
    obtain ⟨j, hj, hm⟩ := exists_decodeOpcode hop
    have hji : encode j = encode i := by rw [encode_of_decodeOpcode hj, hm, h]
    rw [hj, ← decodeOpcode_encode j, hji, decodeOpcode_encode]

/-- An instruction's word has zero in the unused fields exactly when it is canonical (R98). -/
theorem and_unusedMask_eq_zero (h : decodeOpcode w = some i) : w &&& unusedMask i = 0#16 ↔ w = encode i := by
  constructor
  · intro hz
    have split : w = (w &&& unusedMask i) ||| (w &&& ~~~(unusedMask i)) := by
      rw [← BitVec.and_or_distrib_left, BitVec.or_not_self, BitVec.and_allOnes]
    rw [split, hz, BitVec.zero_or, decodeOpcode_eq_some.mp h]
  · intro e
    rw [e]
    exact encode_and_unusedMask i

/-! The decoder under both values of `UNUSED_FIELDS` (R88). -/

theorem decode_eq_instr :
    decode u w = .instr i ↔ decodeOpcode w = some i ∧ (u = .fault → w = encode i) := by
  unfold decode
  cases hd : decodeOpcode w with
  | none => simp
  | some j =>
    cases u with
    | ignore => simp
    | fault =>
      simp only [and_unusedMask_eq_zero hd]
      by_cases hw : w = encode j
      · rw [if_pos hw]
        exact ⟨fun | rfl => ⟨rfl, fun _ => hw⟩, fun | ⟨rfl, _⟩ => rfl⟩
      · rw [if_neg hw]
        exact ⟨nofun, fun | ⟨rfl, h⟩ => absurd (h trivial) hw⟩

theorem decode_eq_unusedFieldSet (h : decodeOpcode w = some i) (hw : w ≠ encode i) :
    decode .fault w = .unusedFieldSet w := by
  simp [decode, h, and_unusedMask_eq_zero h, hw]

theorem decode_eq_reservedOpcode : decode u w = .reservedOpcode w ↔ decodeOpcode w = none := by
  unfold decode
  cases decodeOpcode w with
  | none => simp
  | some i =>
    cases u with
    | ignore => simp
    | fault => simp only; split <;> simp

theorem decodeOpcode_eq_none : decodeOpcode w = none ↔ 0x14 ≤ (opField w).toNat := by
  unfold decodeOpcode
  split
  case h_21 =>
    refine iff_of_true rfl (not_lt.mp fun h => ?_)
    interval_cases (opField w).toNat <;> contradiction
  all_goals exact iff_of_false nofun (by omega)

theorem toNat_opField (w : Word) : (opField w).toNat = w.toNat / 2048 := by
  have hw := w.isLt
  rw [opField, BitVec.extractLsb'_toNat, Nat.shiftRight_eq_div_pow]
  omega

theorem reservedOpcode_iff : decode u w = .reservedOpcode w ↔ 0xA000 ≤ w.toNat := by
  rw [decode_eq_reservedOpcode, decodeOpcode_eq_none, toNat_opField]
  omega

theorem step_of_reservedOpcode (hr : s.run = .running) (hf : fetch s = .ok w)
    (hd : decode s.config.unusedFields w = .reservedOpcode w) : step s = .fault (.illegalInstruction s.pc w) := by
  simp only [step, hr, hf, hd]

theorem step_of_unusedFieldSet (hr : s.run = .running) (hf : fetch s = .ok w)
    (hd : decode s.config.unusedFields w = .unusedFieldSet w) : step s = .fault (.illegalInstruction s.pc w) := by
  simp only [step, hr, hf, hd]

/-- Settles O1: a canonical word is read by the opcode map, and passes the check of its unused fields. -/
theorem decodeOfEncodeIsIdentity : Obligations.DecodeOfEncodeIsIdentity :=
  fun _ i => decode_eq_instr.mpr ⟨decodeOpcode_encode i, fun _ => rfl⟩

/-- Settles O2: the check of the unused fields passes canonical words only. -/
theorem strictDecoderAcceptsCanonicalWordsOnly : Obligations.StrictDecoderAcceptsCanonicalWordsOnly :=
  fun _ _ h => ((decode_eq_instr.mp h).2 rfl).symm

/-- Settles O3: outside the unused fields both words are the canonical one. -/
theorem sameInstrIffOnlyUnusedFieldsDiffer : Obligations.SameInstrIffOnlyUnusedFieldsDiffer := by
  intro w w' i h
  have hw := decodeOpcode_eq_some.mp (decode_eq_instr.mp h).1
  rw [decode_eq_instr, decodeOpcode_eq_some, hw]
  exact ⟨fun h' => h'.1.symm, fun e => ⟨e.symm, nofun⟩⟩

/-- Settles O4: the reserved opcodes are the upper part of the opcode field, the top five bits of the word. -/
theorem reservedOpcodesStop : Obligations.ReservedOpcodesStop :=
  ⟨fun _ _ => reservedOpcode_iff, fun _ _ hr hf hw => step_of_reservedOpcode hr hf (reservedOpcode_iff.mpr hw)⟩

/-- Settles O55: the strict decoder tells the canonical word from the others of the same instruction. -/
theorem unusedFieldSetStops : Obligations.UnusedFieldSetStops := by
  intro s w i hr hu hf hd
  have hi := decodeOpcode_of_decode hd
  constructor
  · intro hw
    exact step_of_unusedFieldSet hr hf (hu ▸ decode_eq_unusedFieldSet hi hw)
  · intro hw
    exact step_of_decoded hr hf (decode_eq_instr.mpr ⟨hi, fun _ => hw⟩)

/-- Settles O5, by running the decoder. -/
theorem sampleWordsDecode : Obligations.SampleWordsDecode := by
  unfold Obligations.SampleWordsDecode
  decide

/-! The immediates (R83, R84, R86) and the device numbers (R183, R184). -/

theorem toNat_imm5Field (w : Word) : (imm5Field w).toNat = w.toNat % 32 := BitVec.extractLsb'_toNat 0 5 w

theorem toNat_imm8Field (w : Word) : (imm8Field w).toNat = w.toNat % 256 := BitVec.extractLsb'_toNat 0 8 w

theorem inputDevice_isSome (dev : BitVec 5) : (inputDevice dev).isSome = true ↔ dev.toNat ≤ 2 := by
  rw [Option.isSome_iff_exists]
  exact ⟨fun ⟨_, h⟩ => toNat_le_two_of_inputDevice h, inputDevice_eq_some⟩

theorem outputDevice_isSome (dev : BitVec 5) : (outputDevice dev).isSome = true ↔ dev.toNat ≤ 2 := by
  rw [Option.isSome_iff_exists]
  exact ⟨fun ⟨_, h⟩ => toNat_le_two_of_outputDevice h, outputDevice_eq_some⟩

/-- The range of the unsigned reading of an immediate (R86). -/
theorem toNat_le_31 (v : BitVec 5) : v.toNat ≤ 31 := Nat.le_of_lt_succ v.isLt

theorem toNat_le_255 (v : BitVec 8) : v.toNat ≤ 255 := Nat.le_of_lt_succ v.isLt

/-- The range of the signed reading. -/
theorem toInt_imm5_range (v : BitVec 5) : -16 ≤ v.toInt ∧ v.toInt ≤ 15 :=
  ⟨BitVec.le_toInt v, Int.le_of_lt_add_one BitVec.toInt_lt⟩

theorem toInt_imm8_range (v : BitVec 8) : -128 ≤ v.toInt ∧ v.toInt ≤ 127 :=
  ⟨BitVec.le_toInt v, Int.le_of_lt_add_one BitVec.toInt_lt⟩

/-- Settles O6: a field is the low bits of the word, and neither extension changes the number it extends. -/
theorem immediateValues : Obligations.ImmediateValues := by
  refine ⟨fun w => ⟨toNat_imm5Field w, toNat_imm8Field w⟩,
    fun dev => ⟨toNat_le_31 dev, inputDevice_isSome dev, outputDevice_isSome dev⟩, fun v => ?_, fun v => ?_⟩
  · have zext : (v.setWidth 16).toNat = v.toNat := BitVec.toNat_setWidth_of_le (by decide)
    have sext : (v.signExtend 16).toInt = v.toInt := BitVec.toInt_signExtend_of_le (by decide)
    obtain ⟨lo, hi⟩ := toInt_imm5_range v
    exact ⟨zext, toNat_le_31 v, sext, lo, hi, zext⟩
  · have zext : (v.setWidth 16).toNat = v.toNat := BitVec.toNat_setWidth_of_le (by decide)
    have sext : (v.signExtend 16).toInt = v.toInt := BitVec.toInt_signExtend_of_le (by decide)
    obtain ⟨lo, hi⟩ := toInt_imm8_range v
    exact ⟨sext, lo, hi, zext, zext, toNat_le_255 v⟩

/-! The assembler (R94, R95, R98). -/

@[simp] theorem regOfNat_toNat_regBits (r : Reg) : regOfNat (regBits r).toNat = r := by cases r <;> rfl

@[simp] theorem ofInt_immValue (ext : ImmExt) (v : BitVec 5) : BitVec.ofInt 5 (immValue ext v) = v := by
  cases ext with
  | zero => rw [immValue, BitVec.ofInt_natCast, BitVec.ofNat_toNat, BitVec.setWidth_eq]
  | sign => exact BitVec.ofInt_toInt

/-! The kinds of operand, each with its range (R95). -/

@[simp] theorem imm5InRange_zero {v : Int} : imm5InRange .zero v = true ↔ 0 ≤ v ∧ v ≤ 31 := by simp [imm5InRange]

@[simp] theorem imm5InRange_sign {v : Int} : imm5InRange .sign v = true ↔ -16 ≤ v ∧ v ≤ 15 := by simp [imm5InRange]

@[simp] theorem accepts_reg {n : Nat} : OperandKind.reg.accepts ext (.reg n) = true ↔ n ≤ 7 := decide_eq_true_iff

@[simp] theorem accepts_imm5 {v : Int} : OperandKind.imm5.accepts ext (.imm v) = true ↔ imm5InRange ext v = true := .rfl

@[simp] theorem accepts_mem {b : Nat} {v : Int} :
    OperandKind.mem.accepts ext (.mem b v) = true ↔ b ≤ 7 ∧ imm5InRange ext v = true := by simp [OperandKind.accepts]

@[simp] theorem accepts_signed8 {v : Int} : OperandKind.signed8.accepts ext (.imm v) = true ↔ -128 ≤ v ∧ v ≤ 127 := by
  simp [OperandKind.accepts]

@[simp] theorem accepts_unsigned8 {v : Int} : OperandKind.unsigned8.accepts ext (.imm v) = true ↔ 0 ≤ v ∧ v ≤ 255 := by
  simp [OperandKind.accepts]

@[simp] theorem accepts_target5 {v : Int} : OperandKind.target5.accepts ext (.imm v) = true ↔ 0 ≤ v ∧ v ≤ 31 := by
  simp [OperandKind.accepts]

@[simp] theorem accepts_device {v : Int} : OperandKind.device.accepts ext (.imm v) = true ↔ 0 ≤ v ∧ v ≤ 31 := by
  simp [OperandKind.accepts]

@[simp] theorem acceptsAll_nil : acceptsAll ext [] [] = true := rfl

@[simp] theorem acceptsAll_cons {k : OperandKind} {o : Operand} {ks : List OperandKind} {os : List Operand} :
    acceptsAll ext (k :: ks) (o :: os) = true ↔ k.accepts ext o = true ∧ acceptsAll ext ks os = true :=
  Bool.and_eq_true_iff

/-- Where the operands make an instruction at all, the assembler asks for nothing but their kinds and ranges. -/
theorem assemble_isSome {m : Mnemonic} {os : List Operand} (h : (instrOfOperands m os).isSome = true) :
    (assemble ext ⟨m, os⟩).isSome = true ↔ acceptsAll ext m.operandKinds os = true := by
  unfold assemble AsmInstr.wellFormed
  split
  · next hw => exact iff_of_true h hw
  · next hw => exact iff_of_false nofun hw

/-- Settles O8: each shape of operands, and what its kinds accept. -/
theorem assemblerEnforcesRanges : Obligations.AssemblerEnforcesRanges := by
  refine ⟨fun m hm d s v => ?_, fun d b v => ⟨?ld, ?st⟩, fun d v => ⟨?ldi, ?lda, ?jmp, ?jz, ?jnz, ?inp, ?out⟩,
    by decide, by decide⟩
  · have hk : m.operandKinds = [.reg, .reg, .imm5] := by fin_cases hm <;> rfl
    have hi : (instrOfOperands m [.reg d, .reg s, .imm v]).isSome = true := by fin_cases hm <;> rfl
    rw [assemble_isSome hi]
    simp [hk]
  case st | out =>
    rw [assemble_isSome rfl]
    simp [Mnemonic.operandKinds, and_assoc, and_comm, and_left_comm]
  all_goals
    rw [assemble_isSome rfl]
    simp [Mnemonic.operandKinds]

/-! From an instruction to assembly and back (R94, R98). -/

@[simp] theorem imm5InRange_immValue (ext : ImmExt) (v : BitVec 5) : imm5InRange ext (immValue ext v) = true := by
  cases ext with
  | zero => exact imm5InRange_zero.mpr ⟨Int.natCast_nonneg _, Int.ofNat_le.mpr (toNat_le_31 v)⟩
  | sign => exact imm5InRange_sign.mpr (toInt_imm5_range v)

theorem toNat_regBits_le (r : Reg) : (regBits r).toNat ≤ 7 := Nat.le_of_lt_succ (regBits r).isLt

/-- Every number written is in the range of the field it stands for. -/
theorem wellFormed_disassemble (ext : ImmExt) (i : Instr) : (disassemble ext i).wellFormed ext = true := by
  cases i <;> simp [disassemble, AsmInstr.wellFormed, Mnemonic.operandKinds, regOperand, toNat_regBits_le, toNat_le_31,
    toNat_le_255, toInt_imm8_range]

theorem instrOfOperands_disassemble (ext : ImmExt) (i : Instr) :
    instrOfOperands (disassemble ext i).mnemonic (disassemble ext i).operands = some i := by
  cases i <;> simp [disassemble, instrOfOperands, regOperand]

/-- Settles O7: the operands written are accepted, and each stands for the field it was read from. -/
theorem assembleOfDisassembleIsIdentity : Obligations.AssembleOfDisassembleIsIdentity :=
  fun ext i => (if_pos (wellFormed_disassemble ext i)).trans (instrOfOperands_disassemble ext i)

end Sys2Proof.Machine

/-! Proofs of the statements about arithmetic (40_arithmetic.md): the rules of ADD, SUB, MUL and DIV (R111 to R114), the
division law and the independence of the results from signedness (R115). -/

namespace Sys2Proof.Machine

variable {s : State}

/-! Results (R111 to R113, R115 (c) and (d)). -/

theorem addResult_eq_ofNat (a b : Word) : addResult a b = BitVec.ofNat 16 (a.toNat + b.toNat) :=
  BitVec.ofInt_natCast 16 _

theorem mulResult_eq (a b : Word) : mulResult a b = a * b := by
  rw [mulResult, mulProduct, trunc16, s16, s16, BitVec.ofInt_mul, BitVec.ofInt_toInt, BitVec.ofInt_toInt]

theorem trunc16_eq_zero_iff (n : Int) : trunc16 n = 0x0000#16 ↔ (65536 : Int) ∣ n := by
  rw [trunc16, ← BitVec.toNat_inj, BitVec.toNat_ofInt, BitVec.toNat_ofNat]
  omega

/-- Settles O14: each result is BitVec's own operation, which both readings of the operands give. -/
theorem resultsIndependentOfSignedness : Obligations.ResultsIndependentOfSignedness := by
  refine fun a b => ⟨?_, ?_, ?_⟩
  · rw [addResult_eq, BitVec.ofInt_add, BitVec.ofInt_toInt, BitVec.ofInt_toInt]
  · rw [subResult_eq, Int.sub_eq_add_neg, BitVec.ofInt_add, BitVec.ofInt_neg, BitVec.ofInt_toInt, BitVec.ofInt_toInt,
      BitVec.sub_eq_add_neg]
  · rw [mulResult_eq, BitVec.ofNat_mul, BitVec.ofNat_toNat, BitVec.ofNat_toNat, BitVec.setWidth_eq, BitVec.setWidth_eq]

/-! Flags (R111, R112, R116). -/

theorem not_fitsSigned (n : Int) : (!fitsSigned n) = decide (n < -32768 ∨ 32767 < n) := by
  rw [Bool.eq_iff_iff]
  simp only [fitsSigned, Bool.not_eq_true', Bool.and_eq_false_iff, decide_eq_false_iff_not, decide_eq_true_iff]
  omega

theorem fitsSigned_eq_false_iff (n : Int) : fitsSigned n = false ↔ n < -32768 ∨ 32767 < n := by
  rw [← Bool.not_eq_true', not_fitsSigned, decide_eq_true_iff]

theorem bit15_eq_msb (v : Word) : bit15 v = v.msb := (BitVec.msb_eq_getLsbD_last v).symm

/-- V of ADD as a comparison of sign bits says that the exact signed sum is out of range. -/
theorem addFlags_v_iff (a b : Word) :
    (addFlags a b).v = true ↔ a.toInt + b.toInt < -32768 ∨ 32767 < a.toInt + b.toInt := by
  have signs : (addFlags a b).v = a.saddOverflow b := by
    rw [BitVec.saddOverflow_eq, ← addResult_eq, ← bit15_eq_msb, ← bit15_eq_msb, ← bit15_eq_msb]
    rfl
  rw [signs, BitVec.saddOverflow, Bool.or_eq_true_iff, decide_eq_true_iff, decide_eq_true_iff]
  omega

/-- V of SUB as a comparison of sign bits says that the exact signed difference is out of range. -/
theorem subFlags_v_iff (p : SubCarry) (a b : Word) :
    (subFlags p a b).v = true ↔ a.toInt - b.toInt < -32768 ∨ 32767 < a.toInt - b.toInt := by
  have signs : (subFlags p a b).v = a.ssubOverflow b := by
    rw [BitVec.ssubOverflow_eq, ← subResult_eq, ← bit15_eq_msb, ← bit15_eq_msb, ← bit15_eq_msb]
    simp only [subFlags]
    cases bit15 a <;> cases bit15 b <;> simp
  rw [signs, BitVec.ssubOverflow, Bool.or_eq_true_iff, decide_eq_true_iff, decide_eq_true_iff]
  omega

/-! What the four instructions share: where npc is defined they complete with a result, the flags, and the next pc. -/

theorem advance_result_flags (hn : NpcDefined s) (rd : Reg) (v : Word) (f : Flags) :
    ∃ t, advance (setFlags f (writeReg rd v s)) = .next t ∧ t.pc = npcOf s ∧
      readReg rd t = (if rd = .r0 then 0x0000#16 else v) ∧ t.flags = f ∧ RegisterFrame rd s t :=
  ⟨_, advance_of_npcDefined hn, rfl, readReg_writeReg_same rd v s, rfl, registerFrame_writeReg_flags rd s v _ f⟩

/-- Settles O9: the completion, with the sum and the flags of R111. -/
theorem addRule : Obligations.AddRule := by
  refine ⟨selects_of_opcode fun w hw => by rw [decodeOpcode, hw]; rfl, fun rd rs imm5 s hn => ?_⟩
  intro a b r
  have hr : addResult a b = r := addResult_eq_ofNat a b
  have hc : (addFlags a b).c = decide (65536 ≤ a.toNat + b.toNat) := decide_eq_decide.mpr (by unfold u; omega)
  obtain ⟨t, ht, hpc, hrd, hf, hframe⟩ := advance_result_flags hn rd (addResult a b) (addFlags a b)
  rw [← hr]
  refine ⟨t, ht, hpc, hrd, ?_⟩
  rw [hf]
  exact ⟨hc, rfl, addFlags_v_iff a b, rfl, rfl, hframe⟩

/-- Settles O10: the completion, with the difference and the flags of R112. -/
theorem subRule : Obligations.SubRule := by
  refine ⟨selects_of_opcode fun w hw => by rw [decodeOpcode, hw]; rfl, fun rd rs imm5 s hn => ?_⟩
  intro a b r
  have hBorrow : subCarryFlag .borrow a b = decide (a.toNat < b.toNat) := decide_eq_decide.mpr Int.ofNat_lt
  have hNotBorrow : subCarryFlag .notBorrow a b = decide (b.toNat ≤ a.toNat) := by
    rw [subCarryFlag, ← decide_not]
    exact decide_eq_decide.mpr (Int.not_lt.trans Int.ofNat_le)
  obtain ⟨t, ht, hpc, hrd, hf, hframe⟩ := advance_result_flags hn rd (subResult a b) (subFlags s.config.subCarry a b)
  refine ⟨t, ht, hpc, hrd, ?_⟩
  rw [hf]
  exact ⟨fun h => h ▸ hBorrow, fun h => h ▸ hNotBorrow, rfl, subFlags_v_iff _ a b, rfl, rfl, hframe⟩

/-- Settles O11: the completion, with the product and the flags of R113. -/
theorem mulRule : Obligations.MulRule := by
  refine ⟨selects_of_opcode fun w hw => by rw [decodeOpcode, hw]; rfl, fun rd rs imm5 s hn => ?_⟩
  intro p
  obtain ⟨t, ht, hpc, hrd, hf, hframe⟩ := advance_result_flags hn rd (mulResult (readReg rs s) _)
    (mulFlags (readReg rs s) (regImm s.config.rimmExt imm5) s.flags)
  refine ⟨t, ht, hpc, hrd, ?_⟩
  rw [hf]
  exact ⟨not_fitsSigned p, beq_iff_eq.trans (trunc16_eq_zero_iff p), rfl, rfl, hframe⟩

/-! Division (R114, R115 (e)). -/

/-- The spec's rounding toward zero, by sign and absolute values, is `Int.tdiv`. -/
theorem tdiv_eq_sign_mul_natAbs_div (a b : Int) :
    a.tdiv b = (if a < 0 ↔ b < 0 then (1 : Int) else -1) * ((a.natAbs / b.natAbs : Nat) : Int) := by
  have hneg (m : Nat) : Int.negSucc m < 0 := Int.negSucc_lt_zero m
  have hnonneg (m : Nat) : ¬ Int.ofNat m < 0 := Int.not_lt.mpr (Int.natCast_nonneg m)
  cases a with
  | ofNat m =>
    cases b with
    | ofNat n => rw [if_pos (iff_of_false (hnonneg m) (hnonneg n)), Int.one_mul]; rfl
    | negSucc n => rw [if_neg fun h => hnonneg m (h.mpr (hneg n)), Int.neg_one_mul]; rfl
  | negSucc m =>
    cases b with
    | ofNat n => rw [if_neg fun h => hnonneg n (h.mp (hneg m)), Int.neg_one_mul]; rfl
    | negSucc n => rw [if_pos (iff_of_true (hneg m) (hneg n)), Int.one_mul]; rfl

theorem tdiv_nonpos_of_nonpos_of_nonneg {a b : Int} (ha : a ≤ 0) (hb : 0 ≤ b) : a.tdiv b ≤ 0 := by
  have h := Int.tdiv_nonneg (Int.neg_nonneg_of_nonpos ha) hb
  rw [Int.neg_tdiv] at h
  exact Int.nonpos_of_neg_nonneg h

theorem tmod_eq_zero_or_sign_eq (a b : Int) : a.tmod b = 0 ∨ (a.tmod b).sign = a.sign := by
  have h := Int.sign_tmod a b
  split at h
  · exact .inl (Int.sign_eq_zero_iff_zero.mp h)
  · exact .inr h

/-- The quotient leaves the signed range for one pair of operands only. In absolute value it is at most the dividend, so
it can only be 32768, with the dividend -32768 and the divisor of absolute value 1. -/
theorem fitsSigned_divQuotient_eq_false_iff (a b : Word) :
    fitsSigned (divQuotient a b) = false ↔ s16 a = -32768 ∧ s16 b = -1 := by
  rw [fitsSigned_eq_false_iff]
  constructor
  · intro hout
    have hle : (divQuotient a b).natAbs ≤ (s16 a).natAbs := Int.natAbs_tdiv_le_natAbs _ _
    have hlo : -32768 ≤ s16 a := BitVec.le_toInt a
    have hhi : s16 a < 32768 := BitVec.toInt_lt
    have ha : s16 a = -32768 := by omega
    have hq : divQuotient a b = 32768 := by omega
    have habs : (divQuotient a b).natAbs = (s16 a).natAbs / (s16 b).natAbs := Int.natAbs_tdiv _ _
    rw [hq, ha] at habs
    have hunit : (s16 b).natAbs = 1 := (Nat.div_eq_self.mp habs.symm).resolve_left (by decide)
    have hone : s16 b ≠ 1 := by
      intro hb
      rw [divQuotient, ha, hb] at hq
      exact absurd hq (by decide)
    omega
  · rintro ⟨ha, hb⟩
    rw [divQuotient, ha, hb]
    decide

theorem s16_eq_zero_iff (v : Word) : s16 v = 0 ↔ v = 0x0000#16 := by
  rw [s16, ← BitVec.toInt_inj, BitVec.toInt_zero]

/-- Settles O13: the remainder is `Int.tmod`, the signs are those of `Int.tdiv`. -/
theorem divisionLaw : Obligations.DivisionLaw := by
  intro a b hb
  have hpos : 0 < (s16 b).natAbs := Int.natAbs_pos.mpr (mt (s16_eq_zero_iff b).mp hb)
  refine ⟨⟨(s16 a).tmod (s16 b), (Int.tdiv_mul_add_tmod _ _).symm, ?_, tmod_eq_zero_or_sign_eq _ _⟩,
    fun ha h => Int.tdiv_nonneg ha h.le, fun ha h => tdiv_nonpos_of_nonpos_of_nonneg ha h.le,
    fun ha h => Int.tdiv_nonpos_of_nonneg_of_nonpos ha h.le, fun ha h => Int.tdiv_nonneg_of_nonpos_of_nonpos ha h.le,
    fitsSigned_divQuotient_eq_false_iff a b, ?_⟩
  · rw [Int.natAbs_tmod]
    exact Nat.mod_lt _ hpos
  · intro ha h
    rw [divResult, divQuotient, ha, h]
    decide

theorem s16_regImm_zero_nonneg (imm5 : BitVec 5) : 0 ≤ s16 (regImm .zero imm5) := by
  revert imm5
  decide

/-- Settles O12: the exception where imm5 is 0, and otherwise the completion, with the quotient and the flags of R114. -/
theorem divRule : Obligations.DivRule := by
  refine ⟨selects_of_opcode fun w hw => by rw [decodeOpcode, hw]; rfl, fun rd rs imm5 s => ?_⟩
  intro a b q
  have hb : b = 0 ↔ imm5 = 0#5 := (s16_eq_zero_iff _).trans (regImm_eq_zero_iff _ _)
  refine ⟨hb, fun h => if_pos ((s16_eq_zero_iff _).mp h), fun h hn => ?_⟩
  have hq : divQuotient (readReg rs s) (regImm s.config.rimmExt imm5) = q := tdiv_eq_sign_mul_natAbs_div a b
  have hfits : s.config.rimmExt = .zero → (!fitsSigned q) = false := by
    intro hz
    rw [← hq, Bool.not_eq_false', ← Bool.not_eq_false, fitsSigned_divQuotient_eq_false_iff]
    have hnonneg := s16_regImm_zero_nonneg imm5
    rw [hz]
    omega
  obtain ⟨t, ht, hpc, hrd, hf, hframe⟩ := advance_result_flags hn rd (divResult (readReg rs s) _)
    (divFlags (readReg rs s) (regImm s.config.rimmExt imm5) s.flags)
  refine ⟨t, (execDiv_of_ne_zero (mt hb.mpr h) rd rs).trans ht, hpc, ?_⟩
  rw [hf, hrd, divFlags, divResult, hq]
  exact ⟨rfl, not_fitsSigned q, hfits, beq_iff_eq, rfl, rfl, hframe⟩

end Sys2Proof.Machine

/-! Proofs of the statements about the logical instructions (41_logical.md): the rules of AND, OR, XOR (R130 to R132) and
of NOT (R133). -/

namespace Sys2Proof.Machine

variable {s : State}

/-! The immediate under `RIMM_EXT = zero` has bits 15:5 zero (R86). -/

theorem toNat_regImm_zero_le_31 (imm5 : BitVec 5) : (regImm .zero imm5).toNat ≤ 31 := by
  have zext : (regImm .zero imm5).toNat = imm5.toNat := BitVec.toNat_setWidth_of_le (by decide)
  exact zext ▸ toNat_le_31 imm5

theorem toNat_regImm_zero_div_32 (imm5 : BitVec 5) : (regImm .zero imm5).toNat / 32 = 0 :=
  Nat.div_eq_of_lt (Nat.lt_succ_of_le (toNat_regImm_zero_le_31 imm5))

/-- AND with it leaves bits 4:0 at most. -/
theorem toNat_and_regImm_zero_le_31 (a : Word) (imm5 : BitVec 5) : (a &&& regImm .zero imm5).toNat ≤ 31 := by
  rw [BitVec.toNat_and]
  exact Nat.and_le_right.trans (toNat_regImm_zero_le_31 imm5)

/-- OR with it keeps bits 15:5. -/
theorem toNat_or_regImm_zero_div_32 (a : Word) (imm5 : BitVec 5) :
    (a ||| regImm .zero imm5).toNat / 32 = a.toNat / 32 := by
  rw [BitVec.toNat_or, Nat.or_div_two_pow (n := 5), toNat_regImm_zero_div_32, Nat.or_zero]

/-- XOR with it keeps bits 15:5. -/
theorem toNat_xor_regImm_zero_div_32 (a : Word) (imm5 : BitVec 5) :
    (a ^^^ regImm .zero imm5).toNat / 32 = a.toNat / 32 := by
  rw [BitVec.toNat_xor, Nat.xor_div_two_pow (n := 5), toNat_regImm_zero_div_32, Nat.xor_zero]

/-! What the four instructions share: where npc is defined they complete with a result, no flag, and the next pc. -/

theorem advance_result (hn : NpcDefined s) (rd : Reg) (v : Word) :
    ∃ t, advance (writeReg rd v s) = .next t ∧ t.pc = npcOf s ∧ t.flags = s.flags ∧ RegisterFrame rd s t ∧
      readReg rd t = (if rd = .r0 then 0x0000#16 else v) :=
  ⟨_, advance_of_npcDefined hn, rfl, rfl, registerFrame_writeReg rd s v _, readReg_writeReg_same rd v s⟩

/-- Settles O15: the completion of each instruction, and what the immediate lets its result be. -/
theorem andOrXorRule : Obligations.AndOrXorRule := by
  refine ⟨selects_of_opcode fun w hw => by rw [decodeOpcode, hw]; rfl,
    selects_of_opcode fun w hw => by rw [decodeOpcode, hw]; rfl,
    selects_of_opcode fun w hw => by rw [decodeOpcode, hw]; rfl, fun rd rs imm5 s hn => ?_⟩
  intro a b
  have hb (hz : s.config.rimmExt = .zero) : b = regImm .zero imm5 := congrArg (regImm · imm5) hz
  refine ⟨?and, ?or, ?xor⟩
  case and =>
    obtain ⟨t, ht, hpc, hf, hframe, hrd⟩ := advance_result hn rd (a &&& b)
    refine ⟨t, ht, hpc, hf, hframe, hrd, fun hz => ?_⟩
    rw [hrd, hb hz]
    split
    · decide
    · exact toNat_and_regImm_zero_le_31 a imm5
  case or =>
    obtain ⟨t, ht, hpc, hf, hframe, hrd⟩ := advance_result hn rd (a ||| b)
    refine ⟨t, ht, hpc, hf, hframe, hrd, fun hz h0 => ?_⟩
    rw [hrd, if_neg h0, hb hz]
    exact toNat_or_regImm_zero_div_32 a imm5
  case xor =>
    obtain ⟨t, ht, hpc, hf, hframe, hrd⟩ := advance_result hn rd (a ^^^ b)
    refine ⟨t, ht, hpc, hf, hframe, hrd, fun hz h0 => ?_⟩
    rw [hrd, if_neg h0, hb hz]
    exact toNat_xor_regImm_zero_div_32 a imm5

/-- The inverted word as the spec's number, `trunc16(65535 - u(a))` (R133). -/
theorem not_eq_ofNat (a : Word) : ~~~a = BitVec.ofNat 16 (65535 - a.toNat) := by
  rw [← BitVec.setWidth_eq (~~~a), ← BitVec.ofNat_toNat, BitVec.toNat_not]

/-- Settles O16: the completion, and after it the completion of the second NOT, whose operand is the first result. -/
theorem notRule : Obligations.NotRule := by
  refine ⟨selects_of_opcode fun w hw => by rw [decodeOpcode, hw]; rfl, fun rd rs s hn => ?_⟩
  obtain ⟨t, ht, hpc, hf, hframe, hrd⟩ := advance_result hn rd (~~~(readReg rs s))
  rw [← not_eq_ofNat]
  refine ⟨t, ht, hpc, hf, hframe, hrd, fun rd' t' h0 h0' h => ?_⟩
  obtain ⟨-, rfl⟩ := execNot_eq_next.mp h
  rw [readReg_setPc, readReg_writeReg_same, if_neg h0', hrd, if_neg h0, BitVec.not_not]

end Sys2Proof.Machine

/-! Proofs of the statements about the memory instructions (42_memory_ops.md): the rules of LD (R141), ST (R142), LDI
(R143) and LDA (R144). -/

namespace Sys2Proof.Machine

variable {s : State}

/-! The stop at an odd address, where that is a fault (R57, R141, R142). -/

theorem execLd_of_not_accessible {rs : Reg} {imm5 : BitVec 5}
    (h : ¬ Accessible (physical (dataAddress rs imm5 s)) s) (rd : Reg) :
    execLd rd rs imm5 s = .fault (.misalignedData s.pc (dataAddress rs imm5 s)) := by
  simp only [execLd, readWord_eq_none.mpr (accessAllowed_of_not_accessible h)]

theorem execSt_of_not_accessible {rd : Reg} {imm5 : BitVec 5}
    (h : ¬ Accessible (physical (dataAddress rd imm5 s)) s) (rs : Reg) :
    execSt rd rs imm5 s = .fault (.misalignedData s.pc (dataAddress rd imm5 s)) := by
  simp only [execSt, writeWord_eq_none.mpr (accessAllowed_of_not_accessible h)]

/-- Settles O18: where the access is performed, the completion with the word read, and otherwise the stop. -/
theorem ldRule : Obligations.LdRule := by
  refine ⟨selects_of_opcode fun w hw => by rw [decodeOpcode, hw]; rfl, fun rd rs imm5 s => ?_⟩
  intro ea
  refine ⟨toNat_effectiveAddress _ _, toNat_physical ea, fun ha hn => ?_, fun ha => execLd_of_not_accessible ha rd⟩
  obtain ⟨v, hread, hexec⟩ := execLd_of_accessible ha rd
  obtain ⟨-, hv⟩ := readWord_eq_some.mp hread
  obtain ⟨t, ht, hres⟩ := advance_result hn rd v
  exact ⟨t, hexec.trans ht, hv ▸ hres⟩

/-- Settles O19: where the access is performed, the completion with the word stored, and otherwise the stop. -/
theorem stRule : Obligations.StRule := by
  refine ⟨selects_of_opcode fun w hw => by rw [decodeOpcode, hw]; rfl, fun rd rs imm5 s => ?_⟩
  intro ea
  refine ⟨toNat_effectiveAddress _ _, toNat_physical ea, fun ha hn => ?_, fun ha => execSt_of_not_accessible ha rs⟩
  exact ⟨_, (execSt_of_accessible ha rs).trans (advance_of_npcDefined hn), rfl, rfl, fun _ _ => rfl, ⟨rfl, rfl⟩,
    rfl, rfl, readByte_storeWord_low _ _ s, readByte_storeWord_high _ _ s,
    fun _ h0 h1 => readByte_storeWord_other h0 h1 _ s⟩

/-- Settles O20: the completion of each instruction, with the number its extension of imm8 keeps. -/
theorem ldiLdaRule : Obligations.LdiLdaRule := by
  refine ⟨selects_of_opcode fun w hw => by rw [decodeOpcode, hw]; rfl,
    selects_of_opcode fun w hw => by rw [decodeOpcode, hw]; rfl, fun rd imm8 s hn => ⟨?ldi, ?lda⟩⟩
  case ldi =>
    have sext : (ldiImm imm8).toInt = imm8.toInt := BitVec.toInt_signExtend_of_le (by decide)
    obtain ⟨t, ht, hpc, hf, hframe, hrd⟩ := advance_result hn rd (ldiImm imm8)
    refine ⟨t, ht, hpc, hf, hframe, ?_⟩
    rw [hrd, apply_ite BitVec.toInt, sext, BitVec.toInt_zero]
  case lda =>
    have zext : (ldaImm imm8).toNat = imm8.toNat := BitVec.toNat_setWidth_of_le (by decide)
    obtain ⟨t, ht, hpc, hf, hframe, hrd⟩ := advance_result hn rd (ldaImm imm8)
    refine ⟨t, ht, hpc, hf, hframe, ?_⟩
    rw [hrd, apply_ite BitVec.toNat, zext, BitVec.toNat_zero]

end Sys2Proof.Machine

/-! Proofs of the statements about control flow (43_control_flow.md): the rules of JMP (R161), JZ (R162), JNZ (R163) and
CALL (R166), and the return by `CALL R3` (R167). -/

namespace Sys2Proof.Machine

variable {s t : State}

/-! The absolute targets (R86, R160). -/

theorem toNat_jmpTarget (imm8 : BitVec 8) : (jmpTarget imm8).toNat = imm8.toNat :=
  BitVec.toNat_setWidth_of_le (by decide)

theorem toNat_branchTarget (imm5 : BitVec 5) : (branchTarget imm5).toNat = imm5.toNat :=
  BitVec.toNat_setWidth_of_le (by decide)

/-- Settles O24: the one next state of JMP differs in its pc only. -/
theorem jmpRule : Obligations.JmpRule :=
  ⟨selects_of_opcode fun w hw => by rw [decodeOpcode, hw]; rfl, fun imm8 s =>
    ⟨_, execJmp_eq_next.mpr rfl, toNat_jmpTarget imm8, rfl, registerFrame_setPc .r0 s _⟩⟩

/-- Settles O25: whether the register is zero decides which of the two next addresses the pc gets. -/
theorem jzJnzRule : Obligations.JzJnzRule := by
  refine ⟨selects_of_opcode fun w hw => by rw [decodeOpcode, hw]; rfl,
    selects_of_opcode fun w hw => by rw [decodeOpcode, hw]; rfl, fun rd imm5 s => ⟨?jzTaken, ?jzNot, ?jnzTaken, ?jnzNot⟩⟩
  case jzTaken =>
    intro hz
    exact ⟨_, execJz_eq_next.mpr (.inl ⟨hz, rfl⟩), toNat_branchTarget imm5, rfl, registerFrame_setPc .r0 s _⟩
  case jzNot =>
    intro hz hn
    exact ⟨_, execJz_eq_next.mpr (.inr ⟨hz, hn, rfl⟩), rfl, rfl, registerFrame_setPc .r0 s _⟩
  case jnzTaken =>
    intro hz
    exact ⟨_, execJnz_eq_next.mpr (.inl ⟨hz, rfl⟩), toNat_branchTarget imm5, rfl, registerFrame_setPc .r0 s _⟩
  case jnzNot =>
    intro hz hn
    exact ⟨_, execJnz_eq_next.mpr (.inr ⟨hz, hn, rfl⟩), rfl, rfl, registerFrame_setPc .r0 s _⟩

/-! The call (R166). -/

/-- The target is read before R3 is written, so it is the old value for CALL R3 too. -/
theorem pc_and_link_of_execCall {rd : Reg} (h : execCall rd s = .next t) :
    t.pc = readReg rd s ∧ readReg .r3 t = npcOf s := by
  obtain ⟨-, rfl⟩ := execCall_eq_next.mp h
  exact ⟨rfl, readReg_writeReg_same .r3 (npcOf s) s⟩

/-- Settles O26: the target and the link, and the frame of a write of R3. -/
theorem callRule : Obligations.CallRule := by
  refine ⟨selects_of_opcode fun w hw => by rw [decodeOpcode, hw]; rfl, fun rd s hn => ?_⟩
  have hcall : execCall rd s = .next (setPc (readReg rd s) (writeReg .r3 (npcOf s) s)) :=
    execCall_eq_next.mpr ⟨hn, rfl⟩
  obtain ⟨hpc, hlink⟩ := pc_and_link_of_execCall hcall
  exact ⟨_, hcall, hpc, hlink, rfl, registerFrame_writeReg .r3 s _ _⟩

/-- Settles O27: the target of the second call is the link that the first one left. -/
theorem callR3ReturnsAfterTheCall : Obligations.CallR3ReturnsAfterTheCall := by
  intro rd s t u u' hcall hkept hreturn
  obtain ⟨-, hlink⟩ := pc_and_link_of_execCall hcall
  obtain ⟨hpc, hlink'⟩ := pc_and_link_of_execCall hreturn
  exact ⟨hpc.trans (hkept.trans hlink), hlink'⟩

end Sys2Proof.Machine

/-! Proofs of the statements about devices and the system instructions (44_io_system.md): the rules of IN (R187), OUT
(R188), HALT (R185) and NOP (R186), a held access (R182), the device trace (R181), and the stopped machine. -/

namespace Sys2Proof.Machine

variable {s : State}

/-! The environment after an attempt and after a value consumed (R181, R182). -/

@[simp] theorem supplied_answered (d : InputDevice) (e : Environment) : supplied d (answered e) = supplied d e := by
  cases d <;> rfl

@[simp] theorem supplied_consumed_same (d : InputDevice) (e : Environment) :
    supplied d (consumed d e) = (supplied d e).tail := by
  unfold consumed
  cases h : supplied d e with
  | nil => cases d <;> exact h
  | cons x xs => cases d <;> rfl

theorem supplied_consumed_other {d q : InputDevice} (h : q ≠ d) (e : Environment) :
    supplied q (consumed d e) = supplied q e := by
  unfold consumed
  split
  · cases q <;> rfl
  · cases d with
    | keyboard => cases q with
      | keyboard => exact absurd rfl h
      | timer | random => rfl
    | timer => cases q with
      | timer => exact absurd rfl h
      | keyboard | random => rfl
    | random => cases q with
      | random => exact absurd rfl h
      | keyboard | timer => rfl

@[simp] theorem consumed_holds (d : InputDevice) (e : Environment) : (consumed d e).holds = e.holds := by
  unfold consumed
  split
  · rfl
  · cases d <;> rfl

@[simp] theorem consumed_holdsRest (d : InputDevice) (e : Environment) : (consumed d e).holdsRest = e.holdsRest := by
  unfold consumed
  split
  · rfl
  · cases d <;> rfl

theorem devReadValue_of_cons {d : InputDevice} {e : Environment} {x : Word} {xs : List Word}
    (h : supplied d e = x :: xs) : devReadValue d e = x := by
  rw [devReadValue, h]

theorem devReadValue_of_nil {d : InputDevice} {e : Environment} (h : supplied d e = []) :
    devReadValue d e = Config.freeInput e.draws := by
  rw [devReadValue, h]

/-! A device number that names no device (R183, R184). -/

theorem execIn_of_unknown {dev : BitVec 5} (h : 2 < dev.toNat) (rd : Reg) :
    execIn rd dev s = .fault (.unknownDevice s.pc dev) := by
  have hd : inputDevice dev = none :=
    Option.eq_none_iff_forall_ne_some.mpr fun _ e => Nat.not_le_of_lt h (toNat_le_two_of_inputDevice e)
  rw [execIn, hd]

theorem execOut_of_unknown {dev : BitVec 5} (h : 2 < dev.toNat) (rs : Reg) :
    execOut dev rs s = .fault (.unknownDevice s.pc dev) := by
  have hd : outputDevice dev = none :=
    Option.eq_none_iff_forall_ne_some.mpr fun _ e => Nat.not_le_of_lt h (toNat_le_two_of_outputDevice e)
  rw [execOut, hd]

/-- Settles O28: the stop for an unknown number, and otherwise the one next state of an access that is not held. -/
theorem inRule : Obligations.InRule := by
  refine ⟨selects_of_opcode fun w hw => by rw [decodeOpcode, hw]; rfl,
    fun rd _ _ h => execIn_of_unknown h rd, fun rd s p hp ha hn => ?_⟩
  have numbers : ∀ p ∈ [(0#5, InputDevice.keyboard), (1#5, .timer), (2#5, .random)],
      inputDevice p.1 = some p.2 := by decide
  refine ⟨_, devReadValue p.2 s.env, execIn_eq_next.mpr ⟨p.2, numbers p hp, .inr ⟨ha, hn, rfl⟩⟩,
    fun _ _ => devReadValue_of_cons, devReadValue_of_nil, readReg_writeReg_same rd _ _, rfl, ?tail, rfl, ?others,
    consumed_holds _ _, consumed_holdsRest _ _, rfl, rfl, sameRegsBut_writeReg rd _ (afterDevRead p.2 s),
    fun _ => rfl, rfl, rfl⟩
  case tail => exact (supplied_consumed_same _ _).trans (congrArg List.tail (supplied_answered _ _))
  case others => exact fun d hd => (supplied_consumed_other hd _).trans (supplied_answered d _)

/-- Settles O29: the stop for an unknown number, and otherwise the one next state of an access that is not held. -/
theorem outRule : Obligations.OutRule := by
  refine ⟨selects_of_opcode fun w hw => by rw [decodeOpcode, hw]; rfl,
    fun rs _ _ h => execOut_of_unknown h rs, fun rs s p hp ha hn => ?_⟩
  have numbers : ∀ p ∈ [(0#5, OutputDevice.console), (1#5, .graphics), (2#5, .disk)],
      outputDevice p.1 = some p.2 := by decide
  exact ⟨_, execOut_eq_next.mpr ⟨p.2, numbers p hp, .inr ⟨ha, hn, rfl⟩⟩, rfl, rfl, rfl, rfl,
    fun _ _ => rfl, fun _ => rfl, rfl, rfl⟩

/-! A held access (R182). -/

theorem exec_of_held {i : Instr} (hi : usesKnownDevice i = true) (ha : accessHeld s.env = true) :
    exec i s = .next (setEnv (answered s.env) s) := by
  cases i with
  | inp rd dev =>
    obtain ⟨d, hd⟩ := inputDevice_eq_some (of_decide_eq_true hi)
    exact execIn_eq_next.mpr ⟨d, hd, .inl ⟨ha, rfl⟩⟩
  | out dev rs =>
    obtain ⟨d, hd⟩ := outputDevice_eq_some (of_decide_eq_true hi)
    exact execOut_eq_next.mpr ⟨d, hd, .inl ⟨ha, rfl⟩⟩
  | _ => exact absurd hi Bool.false_ne_true

/-- The induction over the held attempts: each takes one answer off the list and leaves the same instruction at pc. -/
theorem core_run_of_held {i : Instr} {w : Word} {rest : List Bool} (hi : usesKnownDevice i = true) (n : Nat)
    (hr : s.run = .running) (hf : fetch s = .ok w) (hd : decode s.config.unusedFields w = .instr i)
    (hh : s.env.holds = List.replicate n true ++ rest) :
    Sys2Proof.core.run n s = .next (setEnv { s.env with holds := rest } s) := by
  induction n generalizing s with
  | zero =>
    obtain rfl : s.env.holds = rest := hh
    rfl
  | succ n ih =>
    rw [List.replicate_succ, List.cons_append] at hh
    have ha : accessHeld s.env = true := by rw [accessHeld, hh]
    have hstep : step s = .next (setEnv (answered s.env) s) := (step_of_decoded hr hf hd).trans (exec_of_held hi ha)
    rw [core_run_succ hstep]
    exact ih hr hf hd (congrArg List.tail hh)

/-- Settles O30: one held attempt, and by induction any number of them. -/
theorem heldAccessIsOfferedAgain : Obligations.HeldAccessIsOfferedAgain :=
  ⟨fun _ _ => exec_of_held, fun n _ _ _ _ hi => core_run_of_held hi n⟩

/-! The device trace (R62, R181). -/

/-- Settles O31: an access that is not held appends its event, and every other next state has the trace as before. -/
theorem traceGrowsByOneEventAtTheEnd : Obligations.TraceGrowsByOneEventAtTheEnd := by
  intro i s t h
  cases i with
  | add | sub | mul | and | or | xor | not | ldi | lda | halt | nop =>
    obtain ⟨-, rfl⟩ := advance_eq_next.mp h
    exact .inl rfl
  | div =>
    obtain ⟨-, rfl⟩ | ⟨-, -, rfl⟩ := execDiv_eq_next.mp h <;> exact .inl rfl
  | ld =>
    obtain ⟨-, _, -, rfl⟩ := execLd_eq_next.mp h
    exact .inl rfl
  | st =>
    obtain ⟨-, -, rfl⟩ := execSt_eq_next.mp h
    exact .inl rfl
  | jmp =>
    obtain rfl := execJmp_eq_next.mp h
    exact .inl rfl
  | jz =>
    obtain ⟨-, rfl⟩ | ⟨-, -, rfl⟩ := execJz_eq_next.mp h <;> exact .inl rfl
  | jnz =>
    obtain ⟨-, rfl⟩ | ⟨-, -, rfl⟩ := execJnz_eq_next.mp h <;> exact .inl rfl
  | call =>
    obtain ⟨-, rfl⟩ := execCall_eq_next.mp h
    exact .inl rfl
  | inp rd dev =>
    obtain ⟨d, hd, ⟨-, rfl⟩ | ⟨-, -, rfl⟩⟩ := execIn_eq_next.mp h
    · exact .inl rfl
    · exact .inr (.inl ⟨rd, dev, d, _, rfl, hd, rfl, readReg_writeReg_same rd _ _⟩)
  | out dev rs =>
    obtain ⟨d, hd, ⟨-, rfl⟩ | ⟨-, -, rfl⟩⟩ := execOut_eq_next.mp h
    · exact .inl rfl
    · exact .inr (.inr ⟨rs, dev, d, rfl, hd, rfl⟩)

/-! HALT, NOP and the stopped machine (R185, R186, R202, R238). -/

/-- Settles O32: the one next state of HALT is halted, so its step is to itself. -/
theorem haltRule : Obligations.HaltRule := by
  refine ⟨selects_of_opcode fun w hw => by rw [decodeOpcode, hw]; rfl, fun s hn => ⟨?halts, fun t h => ?stays⟩⟩
  case halts => exact execHalt_eq_next.mpr ⟨hn, rfl⟩
  case stays =>
    obtain ⟨-, rfl⟩ := execHalt_eq_next.mp h
    exact step_of_stopped nofun

/-- Settles O34, by induction on the number of steps, each of which is from the state to itself. -/
theorem stoppedMachineNeverChanges : Obligations.StoppedMachineNeverChanges := by
  intro n s h
  induction n with
  | zero => rfl
  | succ n ih => exact (core_run_succ (step_of_stopped h) n).trans ih

/-- Settles O33: the one next state of NOP differs in its pc only. -/
theorem nopRule : Obligations.NopRule :=
  ⟨selects_of_opcode fun w hw => by rw [decodeOpcode, hw]; rfl, fun _ hn => execNop_eq_next.mpr ⟨hn, rfl⟩⟩

end Sys2Proof.Machine

/-! Proofs of the statements about the exception (60_exceptions.md): what raises it and what halts (R185, R200), its entry
(R202, R204), and the order of a step's checks (R205). -/

namespace Sys2Proof.Machine

variable {s t : State} {i : Instr}

/-! What raises the exception, and what halts (R185, R200). -/

theorem execDiv_of_zero {imm5 : BitVec 5} (h : regImm s.config.rimmExt imm5 = 0x0000#16) (rd rs : Reg) :
    execDiv rd rs imm5 s = .next { s with run := .exception .divideByZero s.pc } :=
  execDiv_eq_next.mpr (.inl ⟨h, rfl⟩)

/-- The only instruction after which a running machine is in an exception, with its cause and address (R200). -/
theorem divByZero_of_exec_exception (hr : s.run = .running) (h : exec i s = .next t) {c : Cause} {a : Word}
    (hx : t.run = .exception c a) : (∃ rd rs, i = .div rd rs 0#5) ∧ c = .divideByZero ∧ a = s.pc := by
  obtain hrun | ⟨rd, rs, rfl, rfl⟩ | ⟨rfl, rfl⟩ := exec_run_cases h
  · cases hx.symm.trans (hrun.trans hr)
  · cases hx
    exact ⟨⟨rd, rs, rfl⟩, rfl, rfl⟩
  · cases hx

theorem exec_halts_iff (hr : s.run = .running) (h : exec i s = .next t) : t.run = .halted ↔ i = .halt := by
  constructor
  · intro hh
    obtain hrun | ⟨rd, rs, rfl, rfl⟩ | ⟨rfl, rfl⟩ := exec_run_cases h
    · cases hh.symm.trans (hrun.trans hr)
    · cases hh
    · rfl
  · rintro rfl
    obtain ⟨-, rfl⟩ := execHalt_eq_next.mp h
    rfl

/-- Settles O35, by what an instruction can do to the run state; the divisor is zero exactly when imm5 is. -/
theorem onlyDivByZeroRaisesAndOnlyHaltHalts : Obligations.OnlyDivByZeroRaisesAndOnlyHaltHalts := by
  intro i s t hr h
  refine ⟨⟨?raisedBy, ?raises⟩, regImm_eq_zero_iff _, fun _ _ hx => (divByZero_of_exec_exception hr h hx).2,
    exec_halts_iff hr h⟩
  case raisedBy =>
    rintro ⟨c, a, hx⟩
    obtain ⟨⟨rd, rs, rfl⟩, -⟩ := divByZero_of_exec_exception hr h hx
    exact ⟨rd, rs, 0#5, rfl, (regImm_eq_zero_iff _ _).mpr rfl⟩
  case raises =>
    rintro ⟨rd, rs, imm5, rfl, hz⟩
    cases (execDiv_of_zero hz rd rs).symm.trans h
    exact ⟨_, _, rfl⟩

/-! The entry (R202, R204). -/

theorem step_of_divByZero {w : Word} {rd rs : Reg} (hr : s.run = .running) (hf : fetch s = .ok w)
    (hd : decode s.config.unusedFields w = .instr (.div rd rs 0#5)) :
    step s = .next { s with run := .exception .divideByZero s.pc } :=
  (step_of_decoded hr hf hd).trans (execDiv_of_zero ((regImm_eq_zero_iff _ _).mpr rfl) rd rs)

/-- Settles O36: the state the exception leaves is a stopped one, which never changes again. -/
theorem divideByZeroEntry : Obligations.DivideByZeroEntry := by
  intro rd rs w s hr hf hd
  have hstep := step_of_divByZero hr hf hd
  exact ⟨hstep, fun n => (core_run_succ hstep n).trans (stoppedMachineNeverChanges n _ nofun)⟩

/-! The order of the checks (R205). -/

theorem step_of_fetch_error {f : Fault} (hr : s.run = .running) (hf : fetch s = .error f) : step s = .fault f := by
  simp only [step, hr, hf]

/-- Where an odd address is a fault, no access at one is performed (R57). -/
theorem not_accessible_of_odd {p : Word} (hm : s.config.misaligned = .fault) (ho : p.toNat % 2 = 1) :
    ¬ Accessible (physical p) s := by
  simp [Accessible, toNat_physical, ho, hm]

/-- Settles O39: a word is decoded only where the fetch gave one, and its instruction runs only where the opcode is not
reserved; IN and OUT look at the device number before they ask the environment. -/
theorem stepChecksInOrder : Obligations.StepChecksInOrder := by
  intro s hr hm
  refine ⟨fun ho => ?oddPc, fun w hf => ⟨fun hop => ?reserved, fun i hd => ?decoded⟩⟩
  case oddPc => exact step_of_fetch_error hr (fetch_of_not_accessible (not_accessible_of_odd hm ho))
  case reserved =>
    exact step_of_reservedOpcode hr hf (decode_eq_reservedOpcode.mpr (decodeOpcode_eq_none.mpr hop))
  case decoded =>
    have hexec : step s = exec i s := step_of_decoded hr hf hd
    refine ⟨?div, ?ld, ?st, ?inp, ?out⟩
    case div =>
      rintro rd rs rfl
      exact step_of_divByZero hr hf hd
    case ld =>
      rintro rd rs imm5 rfl ho
      exact hexec.trans (execLd_of_not_accessible (not_accessible_of_odd hm ho) rd)
    case st =>
      rintro rd rs imm5 rfl ho
      exact hexec.trans (execSt_of_not_accessible (not_accessible_of_odd hm ho) rs)
    case inp =>
      rintro rd dev rfl hdev
      exact hexec.trans (execIn_of_unknown hdev rd)
    case out =>
      rintro dev rs rfl hdev
      exact hexec.trans (execOut_of_unknown hdev rs)

end Sys2Proof.Machine

/-! Proofs of the statements about reset and hazards (70_reset_and_hazards.md): what the host's loading writes and what
it leaves alone (R230), and the start of the core (R233). -/

namespace Sys2Proof.Machine

variable {s : State} {a x : Addr} {bs : List Byte}

/-! The addresses of an image, which wrap around at the end of memory (R50). -/

theorem succ_add_ofNat (a : Addr) (k : Nat) : a + 1#17 + BitVec.ofNat 17 k = a + BitVec.ofNat 17 (k + 1) := by
  rw [BitVec.add_assoc, ← BitVec.ofNat_add, Nat.add_comm]

/-- An offset inside the 128 KB does not lead back to the address it is added to. -/
theorem addr_ne_add_ofNat {k : Nat} (h0 : 0 < k) (hk : k < 131072) : a ≠ a + BitVec.ofNat 17 k := by
  intro h
  have hz : BitVec.ofNat 17 k = 0#17 := BitVec.self_eq_add_right.mp h
  have hmod : k % 2 ^ 17 = 0 := congrArg BitVec.toNat hz
  omega

/-! The host's loading (R230). -/

/-- The loading replaces memory and nothing else. -/
theorem exists_loadBytes_eq_setMem (a : Addr) (bs : List Byte) (s : State) : ∃ m, loadBytes a bs s = setMem m s := by
  induction bs generalizing a s with
  | nil => exact ⟨s.mem, rfl⟩
  | cons b bs ih =>
    obtain ⟨m, hm⟩ := ih (a + 1#17) (writeByte a b s)
    exact ⟨m, hm⟩

theorem readByte_loadBytes_other (h : ∀ k < bs.length, x ≠ a + BitVec.ofNat 17 k) :
    readByte x (loadBytes a bs s) = readByte x s := by
  induction bs generalizing a s with
  | nil => rfl
  | cons b bs ih =>
    have hfirst : x ≠ a := by simpa using h 0 (Nat.succ_pos _)
    have hrest : ∀ k < bs.length, x ≠ a + 1#17 + BitVec.ofNat 17 k := fun k hk =>
      succ_add_ofNat a k ▸ h (k + 1) (Nat.succ_lt_succ hk)
    rw [loadBytes, ih hrest, readByte_writeByte, if_neg hfirst]

/-- No byte of an image that fits in the 128 KB is overwritten by a later one. -/
theorem readByte_loadBytes_image (hfit : bs.length ≤ 131072) {k : Nat} (hk : k < bs.length) :
    readByte (a + BitVec.ofNat 17 k) (loadBytes a bs s) = bs[k] := by
  induction bs generalizing a s k with
  | nil => cases hk
  | cons b bs ih =>
    rw [List.length_cons] at hfit hk
    cases k with
    | zero =>
      have hlater : ∀ j < bs.length, a ≠ a + 1#17 + BitVec.ofNat 17 j := fun j hj =>
        succ_add_ofNat a j ▸ addr_ne_add_ofNat j.succ_pos (by omega)
      rw [BitVec.add_zero, loadBytes, readByte_loadBytes_other hlater, readByte_writeByte, if_pos rfl]
      rfl
    | succ k =>
      rw [← succ_add_ofNat]
      exact ih (by omega) (by omega)

/-! The start (R230, R233). -/

theorem readByte_boot (x a : Addr) (bs : List Byte) (s : State) :
    readByte x (boot a bs s) = readByte x (loadBytes a bs s) := rfl

/-- Settles O49: the loading replaces memory only, byte by byte at addresses that do not meet, and the fetch at 0x0000
is at an even address. -/
theorem bootPlacesTheImageAndStartsAtZero : Obligations.BootPlacesTheImageAndStartsAtZero := by
  intro base image s hfit
  obtain ⟨m, hm⟩ := exists_loadBytes_eq_setMem base image s
  have hboot : boot base image s = setRun .running (setPc 0x0000#16 (setMem m s)) := by rw [boot, hm]; rfl
  have hconfig : (boot base image s).config = s.config := by rw [hboot]; rfl
  have hpc : (boot base image s).pc = 0x0000#16 := rfl
  refine ⟨rfl, hpc, ?regs, ?flags, ?devices, hconfig, ?placed, ?others, ?fetch⟩
  case regs => exact fun _ _ => by rw [hboot]; rfl
  case flags => rw [hboot]; rfl
  case devices => rw [hboot]; exact ⟨rfl, rfl⟩
  case placed => exact fun k hk => (readByte_boot _ base image s).trans (readByte_loadBytes_image hfit hk)
  case others => exact fun x hx => (readByte_boot x base image s).trans (readByte_loadBytes_other hx)
  case fetch =>
    have heven : Accessible (physical (boot base image s).pc) (boot base image s) := by rw [hpc]; exact .inl rfl
    rw [fetch_of_accessible heven, hpc, hconfig]
    rfl

end Sys2Proof.Machine
